-- ==== Sys2Proof/Word.lean ====
section
/-! DEFINITION. The words of the DDSA block (10_state.md R10, R12, R18, R19) and the width parameters of 00_scope.md R5
they are built from; the other parameters stand in Config.lean. -/

namespace Sys2Proof

/-! ### Width parameters (00_scope.md R5, 93_implementation_defined.md U10, U11) -/

/-- `ADC_BITS`, the width of the raw sample code. -/
@[simp] abbrev Config.adcBits : Nat := 10
/-- `VALUE_BITS`, the width of `SAMPLE` (decision D1; EXTRACT itself is over all naturals, R91). -/
@[simp] abbrev Config.valueBits : Nat := 16
/-- `CNT_BITS`, the width of the tick counters (decision D12). -/
@[simp] abbrev Config.cntBits : Nat := 8
/-- `BRIGHT_BITS`, the width of the brightness field. -/
@[simp] abbrev Config.brightBits : Nat := 3

/-! ### Words -/

/-- One byte on the 2-wire bus (30_encoding.md R60) and one segment byte `SEG[i]` (R12). -/
abbrev Byte := BitVec 8

/-- A decimal digit, the value of one cell: 0 to 9 (10_state.md R11, "a model may hold each cell as a natural
number below 10"). DEDUCED, log 26. -/
abbrev Digit := Fin 10

/-- A raw conversion code, `ADC_BITS` wide, unsigned (10_state.md R10). -/
abbrev RawCode := BitVec Config.adcBits

/-- The register `SAMPLE`, `VALUE_BITS` wide, unsigned (10_state.md R10). -/
abbrev Millivolts := BitVec Config.valueBits

/-- A tick counter, `CNT_BITS` wide, unsigned, wrapping (10_state.md R19). -/
abbrev Count := BitVec Config.cntBits

/-- A brightness, `BRIGHT_BITS` wide: 0 to 7 (10_state.md R18). -/
abbrev Brightness := BitVec Config.brightBits

end Sys2Proof
end

