-- ==== Sys2Proof/Config.lean ====
section
/-! DEFINITION. What is fixed for the machine: the parameters of 00_scope.md R5 with their design values, the
DisplayFormat record of 10_state.md R18, and the free values (constants without a body) that stand wherever the
spec leaves a value open. -/

namespace Sys2Proof

/-- The DisplayFormat `FMT` (10_state.md R18) as the record of four fields that decision D7 prefers. The field types
admit the values R205 calls "excluded by the field's legal values"; `Fmt.Legal` says which are legal. -/
structure Fmt where
  /-- `BRIGHT`, 0 to 7. -/
  bright : Brightness
  /-- `DP`: none, or the index of the decimal-point cell. -/
  dp : Option Nat
  /-- `BLANK`: leading-zero blanking enabled. -/
  blank : Bool
  /-- `SHOWN`: number of digits actually shown. -/
  shown : Nat
deriving DecidableEq, Repr, Inhabited

/-- The agents that take steps of their own (00_scope.md R8). The receiver acts only inside a sample of MAIN's. -/
inductive Agent where
  | main
  | tick
  | adc
deriving DecidableEq, Repr, Inhabited

namespace Config

/-! ### Parameters (00_scope.md R5); the four widths stand in Word.lean, which builds the words from them -/

/-- `N`, the number of cells. -/
abbrev width : Nat := 4
/-- `VREF_MV`. -/
abbrev vrefMv : Nat := 5000
/-- `ADC_SCALE`. -/
abbrev adcScale : Nat := 1024
/-- `ACQ_TICKS`. -/
abbrev acqTicks : Nat := 10
/-- `FLASH_TICKS`. -/
abbrev flashTicks : Count := 5
/-- `ROUND_THRESHOLD`. -/
abbrev roundThreshold : Nat := 5
/-- `TICK_MS`; no rule depends on elapsed time (70_reset_and_hazards.md R245), so nothing reads it. -/
abbrev tickMs : Nat := 100
/-- `T_STEP` in microseconds; a `W` event stands for one such wait and has no effect on state (R131). -/
abbrev tStepUs : Nat := 100

/-- The segment table `LUT` (10_state.md R13, 30_encoding.md R67), index = digit value. -/
def lutTable : List Byte := [0x3F, 0x06, 0x5B, 0x4F, 0x66, 0x6D, 0x7D, 0x07, 0x7F, 0x6F]

/-- The value State.reset gives the open parameter `FMT_INIT` (decision D6): the one the spec's own reset example uses.
DESIGN CHOICE, unsafe, log 10. Statements quantify over `FMT_INIT` instead of resting on it. -/
def fmtSuggested : Fmt := { bright := 7, dp := some 0, blank := false, shown := 4 }

/-! ### Free values

Each has no body. It is applied to a counter of State that the reader advances, so nothing constrains it. -/

/-- Which agent steps next when no script is pending (00_scope.md R8). DESIGN CHOICE, log 2. -/
opaque freeAgent : Nat → Agent
/-- The level the receiver answers to an acknowledgment sample (42_serial_driver.md R136, U6). Log 14. -/
opaque freeAck : Nat → Bool
/-- The code of a conversion the peripheral completes by itself (43_acquisition_fsm.md R166, U8). Log 2. -/
opaque freeConversion : Nat → RawCode
/-- What `readRawSample()` returns while no conversion is complete (U4). Log 22. -/
opaque freeAdcRead : Nat → RawCode
/-- `RAW` after RESET (U3). Log 11. -/
opaque freeRaw : Nat → RawCode
/-- `SAMPLE` after RESET (U3). Log 11. -/
opaque freeSample : Nat → Millivolts
/-- `CELL[i]` after RESET (U3). Log 11. -/
opaque freeCell : Nat → Nat → Digit
/-- `SEG[i]` after RESET (U3). Log 11. -/
opaque freeSeg : Nat → Nat → Byte
/-- `ADC_DONE` after RESET (U4). Log 11. -/
opaque freeAdcDone : Nat → Bool
/-- `ADC_RESULT` after RESET (U4). Log 11. -/
opaque freeAdcResult : Nat → RawCode
/-- The byte at display cell `i` once the spec no longer says what it is (U2, U5). Log 16. -/
opaque freeDisp : Nat → Nat → Byte
/-- The receiver's write mode once the spec no longer says what it is (U5). Log 16. -/
opaque freeAutoInc : Nat → Bool
/-- The receiver's cell address once the spec no longer says what it is (U5). Log 16. -/
opaque freeAddr : Nat → Nat
/-- Whether the display is on once the spec no longer says (U2, U5). Log 16. -/
opaque freeOn : Nat → Bool
/-- The display's brightness once the spec no longer says what it is (U2, U5). Log 16. -/
opaque freeBright : Nat → Brightness

end Config

/-- The legal values of `FMT` (10_state.md R18): `DP` none or a cell index below N, `SHOWN` at most N. -/
def Fmt.legal (f : Fmt) : Bool :=
  (match f.dp with
    | none => true
    | some i => decide (i < Config.width)) && decide (f.shown ≤ Config.width)

end Sys2Proof
end

