-- ==== Sys2Proof/Syntax.lean ====
section
/-! DEFINITION. The instructions: one constructor per row of spec/opcode_table.json, with the operand forms of
30_encoding.md R74 and R76. -/

namespace Sys2Proof

/-- The three word formats of the opcode table. Which one a byte has follows from its position in a frame, not from
its bits (30_encoding.md R60); operation selectors are a space of their own (R74). -/
inductive Format where
  /-- a command byte: the first byte of a frame -/
  | cmd
  /-- a segment data byte: every further byte of a frame -/
  | segb
  /-- an operation-select word of a script -/
  | op
deriving DecidableEq, Repr

/-- The four command bytes (30_encoding.md R60 to R64). -/
inductive Command where
  | data
  | addr
  | on (bright : Brightness)
  | off
deriving DecidableEq, Repr

/-- Operand forms of `ROUND` (30_encoding.md R74, R76). The width of explicit cells is their number. -/
inductive RoundForm where
  /-- no operand: `CELL`, N and `FMT.SHOWN` from the registers -/
  | regs
  /-- `ROUND shown`: `CELL` and N from the registers -/
  | shown (n : Nat)
  /-- `ROUND cells, width, shown` -/
  | explicit (cells : List Nat) (shown : Nat)
deriving DecidableEq, Repr

/-- Operand forms of `COMPOSE` (30_encoding.md R74, R76). -/
inductive ComposeForm where
  /-- no operand: `CELL`, N and `FMT` from the registers -/
  | regs
  /-- `COMPOSE cells, width, fmt` -/
  | explicit (cells : List Nat) (fmt : Fmt)
deriving DecidableEq, Repr

/-- Operand forms of `UPDATE` (30_encoding.md R74, R76). -/
inductive UpdateForm where
  /-- no operand: `SEG` and `FMT.BRIGHT` from the registers -/
  | regs
  /-- `UPDATE seg[0..N-1], brightness` -/
  | explicit (seg : Vector Byte Config.width) (bright : Brightness)
deriving DecidableEq, Repr

/-- The instructions of the opcode table, in its order. -/
inductive Instr where
  | dataCmd
  | addrCmd
  | dispOn (bright : Brightness)
  | dispOff
  | segb (dp : Bool) (pattern : BitVec 7)
  | reset
  | mvconv (raw : RawCode)
  | extract (value : Nat) (width : Nat)
  | round (form : RoundForm)
  | compose (form : ComposeForm)
  | start
  | wrbyte (b : Byte)
  | stop
  /-- a non-empty byte list (R138): the first byte and the further ones -/
  | frame (first : Byte) (rest : List Byte)
  | update (form : UpdateForm)
  | adcstart
  | adcpoll
  | adcread
  | refresh
  | acqstepIdle
  | acqstepStarted
  | acqstepConverting
  | tickisr
  | tickpoll
  | indstart
  | indstep
  | pass
deriving DecidableEq, Repr

end Sys2Proof
end

