-- ==== Sys2Proof/WellFormed.lean ====
section
/-! DEFINITION. Which instructions the model's operand encoding can hold (log 4). An explicit cell above 9 or an explicit
width 0 is well formed here: the operation itself refuses it (60_exceptions.md R205). -/

namespace Sys2Proof

/-- A number that one operand byte holds. -/
def fitsByte (n : Nat) : Bool := decide (n < 256)

/-- An explicit cell list: at most 255 cells, each in one operand byte. -/
def cellsFit (cells : List Nat) : Bool := fitsByte cells.length && cells.all fitsByte

/-- A format the packing of 10_state.md R18 holds: two bits of `DP_IDX`, three of `SHOWN`. -/
def Fmt.packs (f : Fmt) : Bool :=
  (match f.dp with
    | none => true
    | some i => decide (i < 4)) && decide (f.shown < 8)

/-- The well-formed instructions. -/
def Instr.wf : Instr → Bool
  | .dataCmd => true
  | .addrCmd => true
  | .dispOn _ => true
  | .dispOff => true
  | .segb _ _ => true
  | .reset => true
  | .mvconv _ => true
  | .extract value width => decide (value < 2 ^ 32) && fitsByte width
  | .round .regs => true
  | .round (.shown n) => fitsByte n
  | .round (.explicit cells shown) => cellsFit cells && fitsByte shown
  | .compose .regs => true
  | .compose (.explicit cells fmt) => cellsFit cells && fmt.packs
  | .start => true
  | .wrbyte _ => true
  | .stop => true
  | .frame _ rest => fitsByte rest.length
  | .update .regs => true
  | .update (.explicit _ _) => true
  | .adcstart => true
  | .adcpoll => true
  | .adcread => true
  | .refresh => true
  | .acqstepIdle => true
  | .acqstepStarted => true
  | .acqstepConverting => true
  | .tickisr => true
  | .tickpoll => true
  | .indstart => true
  | .indstep => true
  | .pass => true

end Sys2Proof
end

