-- ==== Sys2Proof/Decode.lean ====
section
/-! DEFINITION. The decoder, total on any bytes, and the encoder, both from 30_encoding.md: command bytes (R60 to R64),
segment bytes (R65), operation selectors (R74). The spec gives operands no bits; the operand bytes that follow a selector
are the model's own (DESIGN CHOICE, log 4). -/

namespace Sys2Proof

/-! ### Fields of bytes -/

/-- Little-endian number of a byte list. -/
def natOfBytes : List Byte → Nat
  | [] => 0
  | b :: bs => b.toNat + 256 * natOfBytes bs

/-- The `n` low bytes of a number, lowest first. -/
def bytesOfNat : Nat → Nat → List Byte
  | 0, _ => []
  | n + 1, v => BitVec.ofNat 8 v :: bytesOfNat n (v / 256)

/-- The first `n` bytes and the rest, if there are as many. -/
def takeBytes (n : Nat) (bs : List Byte) : Option (List Byte × List Byte) :=
  if n ≤ bs.length then some (bs.take n, bs.drop n) else none

/-- A count byte and that many bytes. -/
def takeCounted : List Byte → Option (List Byte × List Byte)
  | [] => none
  | n :: bs => takeBytes n.toNat bs

/-- A count byte `k` and `k + 1` bytes: the non-empty list `b0 .. bk` of R138. -/
def takeFrame : List Byte → Option (Byte × List Byte × List Byte)
  | k :: b0 :: bs =>
    match takeBytes k.toNat bs with
    | some (rest, tail) => some (b0, rest, tail)
    | none => none
  | _ => none

/-! ### The DisplayFormat word (10_state.md R18, decision D7) -/

/-- Bits [2:0] `BRIGHT`, 3 `BLANK`, [5:4] `DP_IDX`, 6 `DP_EN`, [9:7] `SHOWN`. -/
def packFmt (f : Fmt) : Nat :=
  f.bright.toNat + 8 * f.blank.toNat
    + (match f.dp with
        | none => 0
        | some i => 16 * i + 64)
    + 128 * f.shown

/-- The fields of the 10-bit word. -/
def unpackFmt (w : Nat) : Fmt where
  bright := BitVec.ofNat Config.brightBits w
  dp := if w / 64 % 2 = 1 then some (w / 16 % 4) else none
  blank := decide (w / 8 % 2 = 1)
  shown := w / 128 % 8

/-! ### Command and segment bytes -/

/-- 30_encoding.md R60 to R64; every other value in command position is undefined (R75). -/
def decodeCommand (b : Byte) : Option Command :=
  if b = 0x40 then some .data
  else if b = 0xC0 then some .addr
  else if b &&& 0xF8 = 0x88 then some (.on (b.extractLsb' 0 Config.brightBits))
  else if b = 0x80 then some .off
  else none

/-- 30_encoding.md R60 to R64, R71. -/
def encodeCommand : Command → Byte
  | .data => 0x40
  | .addr => 0xC0
  | .on bright => 0x88 ||| bright.setWidth 8
  | .off => 0x80

/-- The instruction a command byte is. -/
def Command.instr : Command → Instr
  | .data => .dataCmd
  | .addr => .addrCmd
  | .on bright => .dispOn bright
  | .off => .dispOff

/-- 30_encoding.md R65: bit 7 the decimal point, bits [6:0] the pattern. -/
def decodeSegment (b : Byte) : Instr := .segb (b.getLsbD 7) (b.extractLsb' 0 7)

/-- 30_encoding.md R65. -/
def encodeSegment (dp : Bool) (pattern : BitVec 7) : Byte :=
  (if dp then 0x80 else 0x00) ||| pattern.setWidth 8

/-! ### Operation words -/

/-- `OPSEL`, bits [4:0] of the selector (R74). -/
def opsel (b : Byte) : Nat := (b.extractLsb' 0 5).toNat

/-- The field `acq`, bits [6:5] of the selector: read for `ACQSTEP`, ignored for every other operation (R74). -/
def acqField (b : Byte) : Nat := (b.extractLsb' 5 2).toNat

/-- Operands of `ROUND`: a form byte, then the operands of the form (log 4). -/
def decodeRound : List Byte → Option (Instr × List Byte)
  | [] => none
  | form :: bs =>
    match form.toNat, bs with
    | 0, bs => some (.round .regs, bs)
    | 1, n :: tail => some (.round (.shown n.toNat), tail)
    | 2, bs =>
      match takeCounted bs with
      | some (cells, shown :: tail) => some (.round (.explicit (cells.map BitVec.toNat) shown.toNat), tail)
      | _ => none
    | _, _ => none

/-- Operands of `COMPOSE`: a form byte, then cells and the format word of R18 (log 4). -/
def decodeCompose : List Byte → Option (Instr × List Byte)
  | [] => none
  | form :: bs =>
    match form.toNat with
    | 0 => some (.compose .regs, bs)
    | 1 =>
      match takeCounted bs with
      | some (cells, lo :: hi :: tail) =>
        if hi.toNat < 4 then
          some (.compose (.explicit (cells.map BitVec.toNat) (unpackFmt (lo.toNat + 256 * hi.toNat))), tail)
        else none
      | _ => none
    | _ => none

/-- Operands of `UPDATE`: a form byte, then four segment bytes and the brightness (log 4). -/
def decodeUpdate : List Byte → Option (Instr × List Byte)
  | [] => none
  | form :: bs =>
    match form.toNat, bs with
    | 0, bs => some (.update .regs, bs)
    | 1, s0 :: s1 :: s2 :: s3 :: bright :: tail =>
      if bright.toNat < 2 ^ Config.brightBits then
        some (.update (.explicit #v[s0, s1, s2, s3] (BitVec.ofNat Config.brightBits bright.toNat)), tail)
      else none
    | _, _ => none

/-- Operand of `MVCONV`: the 10-bit code in two bytes, low byte first (log 4); the port is 10 bits wide (R205). -/
def decodeMvconv : List Byte → Option (Instr × List Byte)
  | lo :: hi :: tail =>
    if hi.toNat < 4 then some (.mvconv (BitVec.ofNat Config.adcBits (lo.toNat + 256 * hi.toNat)), tail) else none
  | _ => none

/-- Operands of `EXTRACT`: the value in four bytes, low byte first, and the width in one (log 4). -/
def decodeExtract : List Byte → Option (Instr × List Byte)
  | v0 :: v1 :: v2 :: v3 :: width :: tail => some (.extract (natOfBytes [v0, v1, v2, v3]) width.toNat, tail)
  | _ => none

/-- Operand of `WRBYTE`: the byte. -/
def decodeWrbyte : List Byte → Option (Instr × List Byte)
  | b :: tail => some (.wrbyte b, tail)
  | [] => none

/-- Operands of `FRAME`. -/
def decodeFrame (bs : List Byte) : Option (Instr × List Byte) :=
  match takeFrame bs with
  | some (b0, rest, tail) => some (.frame b0 rest, tail)
  | none => none

/-- `ACQSTEP` by its field `acq`; 3 is reserved (R74). -/
def decodeAcqstep (acq : Nat) (bs : List Byte) : Option (Instr × List Byte) :=
  match acq with
  | 0 => some (.acqstepIdle, bs)
  | 1 => some (.acqstepStarted, bs)
  | 2 => some (.acqstepConverting, bs)
  | _ => none

/-- The operation a selector byte names, and what follows its operands. The selector word has 7 bits (R74), so a set
bit 7 selects nothing (log 5); `OPSEL` 0x14 to 0x1F select no operation (R75). -/
def decodeOp : List Byte → Option (Instr × List Byte)
  | [] => none
  | b :: bs =>
    if b.getLsbD 7 then none
    else
      match opsel b with
      | 0x00 => some (.reset, bs)
      | 0x01 => decodeMvconv bs
      | 0x02 => decodeExtract bs
      | 0x03 => decodeRound bs
      | 0x04 => decodeCompose bs
      | 0x05 => some (.start, bs)
      | 0x06 => decodeWrbyte bs
      | 0x07 => some (.stop, bs)
      | 0x08 => decodeFrame bs
      | 0x09 => decodeUpdate bs
      | 0x0A => some (.adcstart, bs)
      | 0x0B => some (.adcpoll, bs)
      | 0x0C => some (.adcread, bs)
      | 0x0D => some (.refresh, bs)
      | 0x0E => decodeAcqstep (acqField b) bs
      | 0x0F => some (.tickisr, bs)
      | 0x10 => some (.tickpoll, bs)
      | 0x11 => some (.indstart, bs)
      | 0x12 => some (.indstep, bs)
      | 0x13 => some (.pass, bs)
      | _ => none

/-- The decoder: the instruction at the head of the bytes, read in the given format, and the bytes after it. -/
def decode (f : Format) (bs : List Byte) : Option (Instr × List Byte) :=
  match f, bs with
  | .cmd, b :: tail =>
    match decodeCommand b with
    | some c => some (c.instr, tail)
    | none => none
  | .cmd, [] => none
  | .segb, b :: tail => some (decodeSegment b, tail)
  | .segb, [] => none
  | .op, bs => decodeOp bs

/-! ### The encoder -/

/-- The format an instruction's row has in the opcode table. -/
def Instr.format : Instr → Format
  | .dataCmd => .cmd
  | .addrCmd => .cmd
  | .dispOn _ => .cmd
  | .dispOff => .cmd
  | .segb _ _ => .segb
  | .reset => .op
  | .mvconv _ => .op
  | .extract _ _ => .op
  | .round _ => .op
  | .compose _ => .op
  | .start => .op
  | .wrbyte _ => .op
  | .stop => .op
  | .frame _ _ => .op
  | .update _ => .op
  | .adcstart => .op
  | .adcpoll => .op
  | .adcread => .op
  | .refresh => .op
  | .acqstepIdle => .op
  | .acqstepStarted => .op
  | .acqstepConverting => .op
  | .tickisr => .op
  | .tickpoll => .op
  | .indstart => .op
  | .indstep => .op
  | .pass => .op

/-- Explicit cells: a count byte and one byte a cell. -/
def encodeCells (cells : List Nat) : List Byte := BitVec.ofNat 8 cells.length :: cells.map (BitVec.ofNat 8)

/-- Form byte and operands of `ROUND`. -/
def encodeRound : RoundForm → List Byte
  | .regs => [0]
  | .shown n => [1, BitVec.ofNat 8 n]
  | .explicit cells shown => 2 :: (encodeCells cells ++ [BitVec.ofNat 8 shown])

/-- Form byte and operands of `COMPOSE`. -/
def encodeCompose : ComposeForm → List Byte
  | .regs => [0]
  | .explicit cells fmt => 1 :: (encodeCells cells ++ bytesOfNat 2 (packFmt fmt))

/-- Form byte and operands of `UPDATE`. -/
def encodeUpdate : UpdateForm → List Byte
  | .regs => [0]
  | .explicit seg bright => 1 :: (seg.toList ++ [bright.setWidth 8])

/-- The bytes of an instruction, in its own format. -/
def encode : Instr → List Byte
  | .dataCmd => [encodeCommand .data]
  | .addrCmd => [encodeCommand .addr]
  | .dispOn bright => [encodeCommand (.on bright)]
  | .dispOff => [encodeCommand .off]
  | .segb dp pattern => [encodeSegment dp pattern]
  | .reset => [0x00]
  | .mvconv raw => 0x01 :: bytesOfNat 2 raw.toNat
  | .extract value width => 0x02 :: (bytesOfNat 4 value ++ [BitVec.ofNat 8 width])
  | .round form => 0x03 :: encodeRound form
  | .compose form => 0x04 :: encodeCompose form
  | .start => [0x05]
  | .wrbyte b => [0x06, b]
  | .stop => [0x07]
  | .frame first rest => 0x08 :: BitVec.ofNat 8 rest.length :: first :: rest
  | .update form => 0x09 :: encodeUpdate form
  | .adcstart => [0x0A]
  | .adcpoll => [0x0B]
  | .adcread => [0x0C]
  | .refresh => [0x0D]
  | .acqstepIdle => [0x0E]
  | .acqstepStarted => [0x2E]
  | .acqstepConverting => [0x4E]
  | .tickisr => [0x0F]
  | .tickpoll => [0x10]
  | .indstart => [0x11]
  | .indstep => [0x12]
  | .pass => [0x13]

/-! ### The opcode table's numbering -/

/-- The `match` and `mask` columns of the instruction's row in spec/opcode_table.json. -/
def Instr.tableRow : Instr → Byte × Byte
  | .dataCmd => (0x40, 0xFF)
  | .addrCmd => (0xC0, 0xFF)
  | .dispOn _ => (0x88, 0xF8)
  | .dispOff => (0x80, 0xFF)
  | .segb _ _ => (0x00, 0x00)
  | .reset => (0x00, 0x1F)
  | .mvconv _ => (0x01, 0x1F)
  | .extract _ _ => (0x02, 0x1F)
  | .round _ => (0x03, 0x1F)
  | .compose _ => (0x04, 0x1F)
  | .start => (0x05, 0x1F)
  | .wrbyte _ => (0x06, 0x1F)
  | .stop => (0x07, 0x1F)
  | .frame _ _ => (0x08, 0x1F)
  | .update _ => (0x09, 0x1F)
  | .adcstart => (0x0A, 0x1F)
  | .adcpoll => (0x0B, 0x1F)
  | .adcread => (0x0C, 0x1F)
  | .refresh => (0x0D, 0x1F)
  | .acqstepIdle => (0x0E, 0x7F)
  | .acqstepStarted => (0x2E, 0x7F)
  | .acqstepConverting => (0x4E, 0x7F)
  | .tickisr => (0x0F, 0x1F)
  | .tickpoll => (0x10, 0x1F)
  | .indstart => (0x11, 0x1F)
  | .indstep => (0x12, 0x1F)
  | .pass => (0x13, 0x1F)

/-- Bytes no shorter than any instruction's: `COMPOSE` with 255 explicit cells has 260. -/
def maxInstrBytes : Nat := 260

/-- The bytes of a word of `nbits` bits, the first byte its lowest, followed by zeros up to the longest instruction. -/
def wordBytes (nbits w : Nat) : List Byte :=
  bytesOfNat ((nbits + 7) / 8) w ++ List.replicate maxInstrBytes 0

/-- The format a word of the opcode table is read in, since the table's formats overlap as bits (R60): a command byte, else
an operation selector that selects an operation, else a segment byte. DESIGN CHOICE, log 5. -/
def tableFormat (w : Nat) : Format :=
  let b : Byte := BitVec.ofNat 8 w
  if (decodeCommand b).isSome then .cmd
  else if (decodeOp (b :: List.replicate maxInstrBytes 0)).isSome then .op
  else .segb

/-- The instruction the decoder reads from a word numbered as the opcode table numbers it. -/
def decodeTableWord (nbits w : Nat) : Option Instr :=
  (decode (tableFormat w) (wordBytes nbits w)).map Prod.fst

end Sys2Proof
end

