-- ==== Sys2Proof/Machine/State.lean ====
section
/-! DEFINITION. The state of the block, of the two external agents as far as the block can observe them, and of the
stimulus that drives it (10_state.md; INVENTORY.md lists every field). Plain data throughout. -/

namespace Sys2Proof.Machine

open Sys2Proof

/-! ### Lines and trace -/

/-- What the block drives on a bus line: released (pulled up) or driven low (10_state.md R23). -/
inductive Drive where
  | rel
  | low
deriving DecidableEq, Repr

/-- The line-level events (30_encoding.md R73). -/
inductive Event where
  /-- `C0`: drive the clock line low -/
  | c0
  /-- `C1`: release the clock line -/
  | c1
  /-- `D0`: drive the data line low -/
  | d0
  /-- `D1`: release the data line -/
  | d1
  /-- `W`: one inter-step delay -/
  | w
  /-- `S(a)`: sample the DIO level; `true` is high, not acknowledged (R135) -/
  | samp (a : Bool)
deriving DecidableEq, Repr

/-- What a reader of the trace sees (42_serial_driver.md R140). -/
inductive Item where
  /-- a fall of DIO while CLK is 1 -/
  | start
  /-- eight data bits and the ninth clock pulse -/
  | byte (b : Byte)
  /-- a rise of DIO while CLK is 1 -/
  | stop
deriving DecidableEq, Repr

/-- The reader's position in the trace: between a start and the next stop or not, and the data bits taken at the clock
rises so far, first bit first (42_serial_driver.md R140). -/
structure Reader where
  inFrame : Bool
  bits : List Bool
deriving DecidableEq, Repr

/-- A reader that has seen nothing. -/
def Reader.idle : Reader := { inFrame := false, bits := [] }

/-! ### The display receiver (20_memory.md R41, R44; log 15) -/

/-- Where the receiver is in a frame; it decides whether a byte is a command or a segment byte (30_encoding.md R60). -/
inductive FramePos where
  /-- outside a frame -/
  | idle
  /-- the next byte is a command byte -/
  | command
  /-- the next byte is a segment data byte -/
  | data
  /-- the command takes no further byte (R78) -/
  | closed
  /-- the spec does not say how the receiver reads the rest of this frame (U5) -/
  | unknown
deriving DecidableEq, Repr

/-- The display's cell store as a list of (address, byte), addresses strictly rising. An unlisted address reads as no
value: the spec gives the store no reset contents (R26, R231). DESIGN CHOICE, safe, log 20. -/
abbrev Memory := List Host.Cell

/-- The canonical form: addresses strictly rising. Every listed byte is a value and an unlisted address has none, so no
entry equals what an unlisted address reads as. -/
abbrev Memory.wf (m : Memory) : Prop := (m.map Prod.fst).Pairwise (· < ·)

/-- The receiver-side view (20_memory.md R41, 93_implementation_defined.md part 2). -/
structure Receiver where
  /-- the byte-level reading of the trace -/
  reader : Reader
  frame : FramePos
  /-- the write mode 0x40 selects: store data bytes, advance the address -/
  autoInc : Bool
  /-- the cell the next data byte goes to -/
  addr : Nat
  /-- display on -/
  on : Bool
  bright : Brightness
  /-- `DISP`, the cell store -/
  cells : Memory
  /-- MODEL: feeds the free values of the receiver -/
  draws : Nat
deriving DecidableEq, Repr

/-- The 2-wire bus: the block's drive on the two lines (R23), the trace (R24), the receiver, and the answers it gives to
acknowledgment samples (R136). -/
structure Bus where
  /-- `CLK_OUT` -/
  clkOut : Drive
  /-- `DIO_OUT` -/
  dioOut : Drive
  /-- `WIRE`, oldest event first -/
  wire : List Event
  rcv : Receiver
  /-- MODEL: levels an `ACKS` line has fixed for the next samples (R76) -/
  acks : List Bool
  /-- MODEL: whether a script line issued the step in progress; then a sample `acks` does not cover is 0 (R76), else
  it is a free value. Log 14. -/
  scripted : Bool
  /-- MODEL: feeds the free values of samples -/
  ackDraws : Nat
deriving DecidableEq, Repr

/-! ### The state -/

/-- `ACQ` (10_state.md R14). -/
inductive Acq where
  | idle
  | started
  | converting
deriving DecidableEq, Repr

/-- MODEL: the value the last value-returning operation returned. DESIGN CHOICE, log 12. -/
inductive Result where
  | none
  | bit (b : Bool)
  | raw (v : RawCode)
  | millivolts (v : Millivolts)
  | cells (ds : List Digit)
  | segs (bs : List Byte)
deriving DecidableEq, Repr

/-- One line of a stimulus script (30_encoding.md R76): an operation word (of any agent of the block), a step of the
acquisition peripheral, or the receiver's next answers. -/
inductive Stimulus where
  /-- the bytes of one instruction, to be read in a format -/
  | word (format : Format) (bytes : List Byte)
  /-- `ADCDONE raw` -/
  | adcDone (raw : RawCode)
  /-- `ACKS a0 .. ak` -/
  | acks (levels : List Bool)
deriving DecidableEq, Repr

/-- The state of the machine. -/
structure State where
  /-- `RAW` (R10) -/
  raw : RawCode
  /-- `SAMPLE` (R10) -/
  sample : Millivolts
  /-- `CELL[0..3]`, index 0 most significant (R10, R11) -/
  cell : Vector Digit Config.width
  /-- `SEG[0..3]`, index 0 leftmost (R10, R12) -/
  seg : Vector Byte Config.width
  /-- `ACQ` (R14) -/
  acq : Acq
  /-- `TICKFLAG` (R16) -/
  tickflag : Bool
  /-- `FMT` (R18) -/
  fmt : Fmt
  /-- `FMT_INIT`, the open parameter (R18, decision D6); no operation writes it -/
  fmtInit : Fmt
  /-- `ICNT` (R19) -/
  icnt : Count
  /-- `ECNT` (R19) -/
  ecnt : Count
  /-- `DURATION` (R20) -/
  duration : Count
  /-- `IND` (R22) -/
  ind : Bool
  /-- `ADC_DONE` (R25) -/
  adcDone : Bool
  /-- `ADC_RESULT` (R25) -/
  adcResult : RawCode
  /-- `ADC_BUSY` (R25) -/
  adcBusy : Bool
  /-- the lines, the trace, the receiver (R23, R24, R26) -/
  bus : Bus
  /-- MODEL: the stimulus lines still to run, next line first (R76). Log 1. -/
  script : List Stimulus
  /-- MODEL: feeds the free values of the scheduler, of the peripheral and of RESET -/
  envDraws : Nat
  /-- MODEL: what the last value-returning operation returned -/
  result : Result
deriving DecidableEq, Repr

/-! ### Why a step can stop -/

/-- Faults: there are none. No operation raises an exception and "No point of the block is given the treatment `fault`"
(60_exceptions.md R200, 93_implementation_defined.md). Safe: nothing is claimed to fault. -/
inductive Fault where
deriving DecidableEq, Repr

/-- Refusals: the step has no successor state. All are safe. -/
inductive Refusal where
  /-- raised by an arm of `exec` whose instruction has no meaning yet; none is left. Safe. -/
  | notModelled (mnemonic : String)
  /-- raised by the fetch: the bytes of a script line select no operation (30_encoding.md R75). Safe. -/
  | undecodable
  /-- raised by ROUND and COMPOSE: an explicit cell above 9, "refuse" (60_exceptions.md R205). Safe. -/
  | cellAboveNine
  /-- raised by ROUND and COMPOSE: an explicit width of 0, "refuse" (60_exceptions.md R205). Safe. -/
  | widthZero
  /-- raised by a script line `ADCDONE` while no conversion is in flight: the peripheral's step is enabled only
  while `ADC_BUSY` = 1 (43_acquisition_fsm.md R166). Safe, log 24. -/
  | adcNotEnabled
deriving DecidableEq, Repr

/-- What an operation answers. -/
abbrev Outcome := Host.Outcome State Fault Refusal

/-! ### Reset -/

/-- The receiver at State.reset. 10_state.md R26 leaves its state unspecified; DESIGN CHOICE, unsafe: nothing listed
(log 20), its registers at the values log 21 names, and outside a frame, its reader idle with no bits taken (log 21). -/
def Receiver.reset : Receiver :=
  { reader := Reader.idle, frame := .idle, autoInc := false, addr := 0, on := false, bright := 0, cells := [], draws := 0 }

/-- The bus at State.reset: both lines released, nothing emitted (10_state.md R23, R24, R30). -/
def Bus.reset : Bus :=
  { clkOut := .rel, dioOut := .rel, wire := [], rcv := Receiver.reset, acks := [], scripted := false, ackDraws := 0 }

/-- The machine right after reset with a given `FMT_INIT` (10_state.md R30, 70_reset_and_hazards.md R230). The registers
R30 leaves unspecified hold the values logs 7, 8 and 21 name. -/
def State.resetWith (fmtInit : Fmt) : State :=
  { raw := 0, sample := 0, cell := Vector.replicate Config.width 0, seg := Vector.replicate Config.width 0
    acq := .idle, tickflag := false, fmt := fmtInit, fmtInit := fmtInit
    icnt := 0, ecnt := 0, duration := 0, ind := false
    adcDone := false, adcResult := 0, adcBusy := false
    bus := Bus.reset, script := [], envDraws := 0, result := .none }

/-- The machine right after reset, `FMT_INIT` as log 10 names it. -/
def State.reset : State := State.resetWith Config.fmtSuggested

end Sys2Proof.Machine
end

