-- ==== Sys2Proof/Machine/Flags.lean ====
section
/-! DEFINITION. The one-bit values of 10_state.md R17 that exist only inside one operation (`carry`, `lead`, `ack`), and
the conditions the registers are compared under. The block has no status flags (R17). -/

namespace Sys2Proof.Machine

open Sys2Proof

/-- `carry` after the rightmost cell: the cell "exceeds 5" (40_digit_pipeline.md R93). -/
def carryOfLast (d : Digit) : Bool := decide (Config.roundThreshold < d.val)

/-- `carry` after a further cell: the sum "exceeds 9" (R93, R94). -/
def carryOfSum (d : Digit) (carryIn : Bool) : Bool := decide (9 < d.val + carryIn.toNat)

/-- `lead` after a cell: cleared by a non-zero cell, never set again (41_display_composer.md R112). -/
def leadNext (lead : Bool) (d : Digit) : Bool := lead && decide (d = 0)

/-- Whether a cell is blanked as a leading zero: not the rightmost index (R112). -/
def leadBlanks (lead : Bool) (d : Digit) (i width : Nat) : Bool := leadNext lead d && decide (i ≠ width - 1)

/-- `ack` read: a high level at the sample is no acknowledgment, and the driver forces the line low
(42_serial_driver.md R133, R135). -/
def forcesLow (ack : Bool) : Bool := ack

/-- The Idle arm's condition, `ICNT >= ACQ_TICKS` (43_acquisition_fsm.md R161, decision D13). -/
def intervalElapsed (icnt : Count) : Bool := decide (Config.acqTicks ≤ icnt.toNat)

/-- "an on-duration is active" (44_scheduler_indicator.md R186, decision D15). -/
def flashActive (duration : Count) : Bool := decide (duration ≠ 0)

/-- "while elapsed ≤ duration" (44_scheduler_indicator.md R186). -/
def flashOn (ecnt duration : Count) : Bool := decide (ecnt.toNat ≤ duration.toNat)

end Sys2Proof.Machine
end

