-- ==== Sys2Proof/Machine/Ops.lean ====
section
/-! DEFINITION. The shared operations: the display's cell store, the reading of the trace, the receiver, emission of line
events, the acknowledgment draw, the tick interrupt, the acquisition peripheral. -/

namespace Sys2Proof.Machine

open Sys2Proof

/-! ### The cell store -/

/-- The byte at an address, if the model has one. -/
def Memory.read (m : Memory) (a : Nat) : Option Byte :=
  match m with
  | [] => none
  | (k, v) :: rest => if a = k then some v else Memory.read rest a

/-- `MemWrite(addr, 1, v)` (20_memory.md R44), keeping the canonical form. -/
def Memory.write (m : Memory) (a : Nat) (v : Byte) : Memory :=
  match m with
  | [] => [(a, v)]
  | (k, u) :: rest =>
    if a < k then (a, v) :: (k, u) :: rest
    else if a = k then (k, v) :: rest
    else (k, u) :: Memory.write rest a v

/-! ### Reading the trace (42_serial_driver.md R125, R140) -/

/-- `CLK_OUT` after an event (30_encoding.md R73). -/
def Event.clk (e : Event) (clk : Drive) : Drive :=
  match e with
  | .c0 => .low
  | .c1 => .rel
  | .d0 => clk
  | .d1 => clk
  | .w => clk
  | .samp _ => clk

/-- `DIO_OUT` after an event (30_encoding.md R73). -/
def Event.dio (e : Event) (dio : Drive) : Drive :=
  match e with
  | .d0 => .low
  | .d1 => .rel
  | .c0 => dio
  | .c1 => dio
  | .w => dio
  | .samp _ => dio

/-- The number whose bits these are, least significant first (20_memory.md R42). -/
def natOfBits : List Bool → Nat
  | [] => 0
  | b :: bs => b.toNat + 2 * natOfBits bs

/-- The reader at one event, the block driving `clk` and `dio` before it (R140): a rise of CLK in a frame is a bit time,
the ninth the acknowledgment; a fall of DIO while CLK is 1 is a start, a rise a stop. DIO is the block's own drive: the
receiver holds it only in the ninth pulse, where no edge of it is a condition (DEDUCED, log 18). -/
def Reader.see (r : Reader) (clk dio : Drive) (e : Event) : Reader × Option Item :=
  match e, clk, dio with
  | .c1, .low, _ =>
    if r.inFrame then
      if r.bits.length < 8 then ({ r with bits := r.bits ++ [decide (dio = .rel)] }, none)
      else ({ r with bits := [] }, some (.byte (BitVec.ofNat 8 (natOfBits r.bits))))
    else (r, none)
  | .d0, .rel, .rel => ({ inFrame := true, bits := [] }, some .start)
  | .d1, .rel, .low => ({ inFrame := false, bits := [] }, some .stop)
  | _, _, _ => (r, none)

/-- A replay of the trace: the lines, the reader, and the items read so far. -/
structure Reading where
  clk : Drive
  dio : Drive
  reader : Reader
  items : List Item
deriving DecidableEq, Repr

/-- The reading of an empty trace: bus idle. -/
def Reading.idle : Reading := { clk := .rel, dio := .rel, reader := Reader.idle, items := [] }

/-- One event of the replay. -/
def Reading.see (r : Reading) (e : Event) : Reading :=
  { clk := e.clk r.clk
    dio := e.dio r.dio
    reader := (r.reader.see r.clk r.dio e).1
    items := r.items ++ (r.reader.see r.clk r.dio e).2.toList }

/-- The byte-level reading of a trace from an idle bus (R140). -/
def readWire (wire : List Event) : Reading := wire.foldl Reading.see Reading.idle

/-- The waits of a trace (42_serial_driver.md R138, R141). -/
def waits (wire : List Event) : Nat := wire.count .w

/-! ### The receiver (20_memory.md R41, R44; logs 15 to 17) -/

/-- The receiver's contents become free values: the spec does not say what it does with what it saw (U5). Cell
addresses 0 to 3 are all the store has: R49 names no other, and that there is none is DESIGN CHOICE, unsafe, log 16. -/
def Receiver.scramble (r : Receiver) : Receiver :=
  { r with
    autoInc := Config.freeAutoInc r.draws
    addr := Config.freeAddr r.draws
    on := Config.freeOn r.draws
    bright := Config.freeBright r.draws
    cells := (((r.cells.write 0 (Config.freeDisp r.draws 0)).write 1 (Config.freeDisp r.draws 1)).write 2
      (Config.freeDisp r.draws 2)).write 3 (Config.freeDisp r.draws 3)
    draws := r.draws + 1 }

/-- The receiver takes a command byte: 0x40 selects write with auto-increment, 0xC0 address 0, 0x88|b turns the display
on at brightness b (R41, 93_implementation_defined.md part 2), 0x80 off (by its name, log 29). -/
def Receiver.command (r : Receiver) (c : Command) : Receiver :=
  match c with
  | .data => { r with autoInc := true }
  | .addr => { r with addr := 0 }
  | .on bright => { r with on := true, bright := bright }
  | .off => { r with on := false }

/-- Whether a data byte has a cell to go to: the write mode is selected and the address is one of the N cells. -/
def Receiver.storable (r : Receiver) : Bool := r.autoInc && decide (r.addr < Config.width)

/-- The receiver takes a data byte: "stored at the current address, which then increases by one" (R41, R44); where it has
no cell to go to, the spec does not say what happens (U5). -/
def Receiver.segment (r : Receiver) (v : Byte) : Receiver :=
  if r.storable then { r with cells := r.cells.write r.addr v, addr := r.addr + 1 } else r.scramble

/-- The rest of the frame is read in no way the spec fixes (U5). -/
def Receiver.lose (r : Receiver) : Receiver := { r.scramble with frame := .unknown }

/-- Where a command leaves the receiver in the frame: only the address command is followed by data bytes (R78). -/
def frameAfter (c : Command) : FramePos :=
  match c with
  | .data => .closed
  | .addr => .data
  | .on _ => .closed
  | .off => .closed

/-- The receiver takes a byte of a frame, its meaning given by its position (30_encoding.md R60, R78). -/
def Receiver.byte (r : Receiver) (b : Byte) : Receiver :=
  match r.frame with
  | .idle => r
  | .command =>
    match decodeCommand b with
    | some c => { r.command c with frame := frameAfter c }
    | none => r.lose
  | .data => if r.storable then r.segment b else r.lose
  | .closed => r.lose
  | .unknown => r.lose

/-- A fall of DIO while CLK is 1: outside a frame the start of one; inside, the start-shaped edge whose treatment is
open (R241, U5). -/
def Receiver.start (r : Receiver) : Receiver :=
  match r.frame with
  | .idle => { r with frame := .command }
  | .command => r.lose
  | .data => r.lose
  | .closed => r.lose
  | .unknown => r.lose

/-- A stop condition ends the frame, also one read in no known way (20_memory.md R52; PRESUMED, log 17). -/
def Receiver.stop (r : Receiver) : Receiver :=
  match r.frame with
  | .unknown => { r.scramble with frame := .idle }
  | .idle => r
  | .command => { r with frame := .idle }
  | .data => { r with frame := .idle }
  | .closed => { r with frame := .idle }

/-- The receiver did not acknowledge a byte of a frame: what it does with it is open (R241, U5). -/
def Receiver.nack (r : Receiver) : Receiver :=
  match r.frame with
  | .idle => r
  | .command => r.lose
  | .data => r.lose
  | .closed => r.lose
  | .unknown => r.lose

/-- The receiver takes what was read. -/
def Receiver.take (r : Receiver) (i : Option Item) : Receiver :=
  match i with
  | none => r
  | some .start => r.start
  | some (.byte b) => r.byte b
  | some .stop => r.stop

/-- The receiver at one event, the block driving `clk` and `dio` before it. -/
def Receiver.see (r : Receiver) (clk dio : Drive) (e : Event) : Receiver :=
  match e with
  | .samp true => r.nack
  | e => { r with reader := (r.reader.see clk dio e).1 }.take (r.reader.see clk dio e).2

/-! ### Emission (42_serial_driver.md R126) -/

/-- `emit e`: append the event to `WIRE` and apply its effect on the lines (R126, 30_encoding.md R73). -/
def Bus.emit (b : Bus) (e : Event) : Bus :=
  { b with
    wire := b.wire ++ [e]
    clkOut := e.clk b.clkOut
    dioOut := e.dio b.dioOut
    rcv := b.rcv.see b.clkOut b.dioOut e }

/-- Emission of a list of events, in order. -/
def Bus.emitAll (b : Bus) (es : List Event) : Bus := es.foldl Bus.emit b

/-- The level the receiver answers to the next sample (42_serial_driver.md R136): as the script fixed it, 0 where a
script does not cover it (30_encoding.md R76), a free value where no script runs. -/
def Bus.nextAck (b : Bus) : Bool :=
  match b.acks with
  | a :: _ => a
  | [] => if b.scripted then false else Config.freeAck b.ackDraws

/-- The bus after that answer is used up. -/
def Bus.dropAck (b : Bus) : Bus := { b with acks := b.acks.tail, ackDraws := b.ackDraws + 1 }

/-- The answers to the next `n` samples, in order. -/
def Bus.answers (b : Bus) : Nat → List Bool
  | 0 => []
  | n + 1 => b.nextAck :: Bus.answers b.dropAck n

/-! ### The tick interrupt (60_exceptions.md R206 to R210) -/

/-- Taking the tick interrupt: "acknowledge the timing source, reload its countdown, set TickFlag"; the first two act
outside the block, nothing is saved, and return restores nothing (R209, R210). The only exception-like entry the block
has (R200). -/
def takeTick (s : State) : State := { s with tickflag := true }

/-! ### The acquisition peripheral (43_acquisition_fsm.md R163 to R166) -/

/-- `startConversion()` (R163). -/
def adcStart (s : State) : State := { s with adcDone := false, adcBusy := true }

/-- `isConversionComplete()` (R164). -/
def adcPoll (s : State) : Bool := s.adcDone

/-- `readRawSample()` (R165): `ADC_RESULT`; a free value while no conversion is complete (U4, log 22). -/
def adcRead (s : State) : RawCode := if s.adcDone then s.adcResult else Config.freeAdcRead s.envDraws

/-- The counter after a read: advanced when a free value was drawn. -/
def adcReadDraws (s : State) : Nat := if s.adcDone then s.envDraws else s.envDraws + 1

/-- The peripheral completes the conversion in flight with a code (R166). -/
def adcComplete (code : RawCode) (s : State) : State :=
  { s with adcResult := code, adcDone := true, adcBusy := false }

end Sys2Proof.Machine
end

