-- ==== Sys2Proof/Machine/Operands.lean ====
section
/-! DEFINITION. Operand forms (30_encoding.md R74, R76): registers to lists and back, and the check of explicit cells
(60_exceptions.md R205). -/

namespace Sys2Proof.Machine

open Sys2Proof

/-- The N-cell register holding a list, index 0 first. Used on lists of length N only. -/
def cellsOf (ds : List Digit) : Vector Digit Config.width := Vector.ofFn fun i => ds.getD i.val 0

/-- The N-byte register holding a list, index 0 first. Used on lists of length N only. -/
def segsOf (bs : List Byte) : Vector Byte Config.width := Vector.ofFn fun i => bs.getD i.val 0

/-- Explicit cells as digits, if none is above 9. -/
def digitsOf (cells : List Nat) : Option (List Digit) :=
  match cells with
  | [] => some []
  | c :: cs =>
    match digitsOf cs with
    | some ds => if h : c < 10 then some (⟨c, h⟩ :: ds) else none
    | none => none

/-- Explicit cells of ROUND and COMPOSE: "refuse" a width of 0 and a cell above 9 (R205), else run. -/
def withCells (cells : List Nat) (run : List Digit → Outcome) : Outcome :=
  match cells, digitsOf cells with
  | [], _ => .refused .widthZero
  | _ :: _, none => .refused .cellAboveNine
  | _ :: _, some ds => run ds

/-- An array an operation computed goes to `CELL` when it has N cells; an array of another width fits no register
and is only returned (DESIGN CHOICE, log 13). -/
def putCells (ds : List Digit) (s : State) : State :=
  { s with cell := if ds.length = Config.width then cellsOf ds else s.cell, result := .cells ds }

/-- Likewise for `SEG`. -/
def putSegs (bs : List Byte) (s : State) : State :=
  { s with seg := if bs.length = Config.width then segsOf bs else s.seg, result := .segs bs }

end Sys2Proof.Machine
end

