-- ==== Sys2Proof/Machine/Display.lean ====
section
/-! DEFINITION. The wire bytes as instructions of the display receiver (30_encoding.md R60 to R66, 20_memory.md R41, R44):
the receiver takes the byte as a command byte or as a data byte. They act on the receiver only (logs 15, 28). -/

namespace Sys2Proof.Machine

open Sys2Proof

/-- The state with the receiver changed. -/
def State.mapRcv (s : State) (f : Receiver → Receiver) : State := { s with bus := { s.bus with rcv := f s.bus.rcv } }

/-- `DATA_CMD`, 0x40 (30_encoding.md R61): "write data, address auto-increment" (20_memory.md R41). -/
def execDataCmd (s : State) : Outcome := .next (s.mapRcv (Receiver.command · .data))

/-- `ADDR_CMD`, 0xC0 (30_encoding.md R62): cell address 0 (20_memory.md R41). -/
def execAddrCmd (s : State) : Outcome := .next (s.mapRcv (Receiver.command · .addr))

/-- `DISP_ON`, 0x88 | brightness (30_encoding.md R63). -/
def execDispOn (bright : Brightness) (s : State) : Outcome := .next (s.mapRcv (Receiver.command · (.on bright)))

/-- `DISP_OFF`, 0x80 (30_encoding.md R64). -/
def execDispOff (s : State) : Outcome := .next (s.mapRcv (Receiver.command · .off))

/-- A segment data byte (30_encoding.md R65), stored at the current cell address (20_memory.md R41, R44). -/
def execSegb (dp : Bool) (pattern : BitVec 7) (s : State) : Outcome :=
  .next (s.mapRcv (Receiver.segment · (encodeSegment dp pattern)))

end Sys2Proof.Machine
end

