-- ==== Sys2Proof/Machine/Reset.lean ====
section
/-! DEFINITION. The RESET operation (70_reset_and_hazards.md R230, R231; 10_state.md R30). -/

namespace Sys2Proof.Machine

open Sys2Proof

/-- The bus at RESET: lines released, trace empty, no event emitted (R230, R231). The display's contents are unspecified
(10_state.md R26, R30), so free values; that it is outside a frame, its reader idle with no bits taken, and that the answers
a script has fixed stay, is DESIGN CHOICE, unsafe (log 11). -/
def Bus.afterReset (b : Bus) : Bus :=
  { b with
    clkOut := .rel
    dioOut := .rel
    wire := []
    rcv := { b.rcv.scramble with reader := Reader.idle, frame := .idle } }

/-- `RESET` (R230): the table of 10_state.md R30. What that table leaves unspecified is a free value (log 11); the
script, the peripheral's answers and the returned value are not the block's. -/
def execReset (s : State) : Outcome :=
  .next { s with
    acq := .idle
    icnt := 0
    ecnt := 0
    duration := 0
    tickflag := false
    ind := false
    fmt := s.fmtInit
    raw := Config.freeRaw s.envDraws
    sample := Config.freeSample s.envDraws
    cell := Vector.ofFn fun i => Config.freeCell s.envDraws i.val
    seg := Vector.ofFn fun i => Config.freeSeg s.envDraws i.val
    adcBusy := false
    adcDone := Config.freeAdcDone s.envDraws
    adcResult := Config.freeAdcResult s.envDraws
    bus := s.bus.afterReset
    envDraws := s.envDraws + 1 }

end Sys2Proof.Machine
end

