-- ==== Sys2Proof/Machine/Composer.lean ====
section
/-! DEFINITION. The display composer: COMPOSE (41_display_composer.md). -/

namespace Sys2Proof.Machine

open Sys2Proof

/-- Step 1, pattern lookup (R111). -/
def lookup (d : Digit) : Byte := Config.lutTable.getD d.val 0

/-- The byte of cell `i` (R110): lookup, leading-zero blanking (R112), decimal point (R113), digit limit (R114). -/
def composeCell (fmt : Fmt) (width i : Nat) (lead : Bool) (d : Digit) : Byte :=
  let p := if leadBlanks lead d i width then 0x00 else lookup d
  let p := if fmt.dp = some i then p ||| 0x80 else p
  if fmt.shown ≤ i then 0x00 else p

/-- The cells from index `i` on, left to right, `lead` being whether leading-zero blanking is still active (R110). -/
def composeFrom (fmt : Fmt) (width : Nat) (i : Nat) (lead : Bool) : List Digit → List Byte
  | [] => []
  | d :: ds => composeCell fmt width i lead d :: composeFrom fmt width (i + 1) (leadNext lead d) ds

/-- `COMPOSE cells, width, fmt` as a function (R110). -/
def composeCells (cells : List Digit) (fmt : Fmt) : List Byte :=
  composeFrom fmt cells.length 0 fmt.blank cells

/-- `COMPOSE` (R110), in its two operand forms (30_encoding.md R76). -/
def execCompose (form : ComposeForm) (s : State) : Outcome :=
  match form with
  | .regs => .next (putSegs (composeCells s.cell.toList s.fmt) s)
  | .explicit cells fmt => withCells cells fun ds => .next (putSegs (composeCells ds fmt) s)

end Sys2Proof.Machine
end

