-- ==== Sys2Proof/Machine/Pipeline.lean ====
section
/-! DEFINITION. The digit pipeline: MVCONV, EXTRACT, ROUND (40_digit_pipeline.md). -/

namespace Sys2Proof.Machine

open Sys2Proof

/-- Raw code to millivolts, nearest with ties upward, in exact arithmetic (R90, decision D2). -/
def toMillivolts (raw : RawCode) : Millivolts :=
  BitVec.ofNat Config.valueBits ((Config.vrefMv * raw.toNat + Config.adcScale / 2) / Config.adcScale)

/-- The digit `value mod 10`. -/
def lastDigit (value : Nat) : Digit := ⟨value % 10, Nat.mod_lt _ (by decide)⟩

/-- `extractDigits(value, width)` (R91): remainders by 10, from the least significant cell to the left. The early stop at
`value = 0` is unobservable (R91), so the division goes on through zeros. -/
def extractDigits (value : Nat) : Nat → List Digit
  | 0 => []
  | width + 1 => extractDigits (value / 10) width ++ [lastDigit value]

/-- A digit plus an incoming carry; 10 becomes 0 (R93). -/
def addCarry (d : Digit) (carryIn : Bool) : Digit := ⟨(d.val + carryIn.toNat) % 10, Nat.mod_lt _ (by decide)⟩

/-- The single pass of R93, right to left: the rightmost cell is zeroed and gives the first carry, each further cell
takes the carry in. Answers the carry out of the leftmost cell and the cells. -/
def roundPass : List Digit → Bool × List Digit
  | [] => (false, [])
  | [d] => (carryOfLast d, [0])
  | d :: e :: ds =>
    let (carry, rest) := roundPass (e :: ds)
    (carryOfSum d carry, addCarry d carry :: rest)

/-- `roundToDisplayedWidth(cells, width, shown)` (R93): only when `shown < width`; the carry left after cell 0 is
discarded. -/
def roundDigits (cells : List Digit) (shown : Nat) : List Digit :=
  if shown < cells.length then (roundPass cells).2 else cells

/-- `MVCONV raw` (R90): the result is stored in `SAMPLE`. -/
def execMvconv (raw : RawCode) (s : State) : Outcome :=
  .next { s with sample := toMillivolts raw, result := .millivolts (toMillivolts raw) }

/-- `EXTRACT value, width` (R91). -/
def execExtract (value width : Nat) (s : State) : Outcome :=
  .next (putCells (extractDigits value width) s)

/-- `ROUND` (R93), in its three operand forms (30_encoding.md R76). -/
def execRound (form : RoundForm) (s : State) : Outcome :=
  match form with
  | .regs => .next (putCells (roundDigits s.cell.toList s.fmt.shown) s)
  | .shown n => .next (putCells (roundDigits s.cell.toList n) s)
  | .explicit cells shown => withCells cells fun ds => .next (putCells (roundDigits ds shown) s)

end Sys2Proof.Machine
end

