-- ==== Sys2Proof/Machine/Serial.lean ====
section
/-! DEFINITION. The 2-wire serial driver: START, WRBYTE, STOP, FRAME, UPDATE (42_serial_driver.md). -/

namespace Sys2Proof.Machine

open Sys2Proof

/-! ### Events -/

/-- `START` (R128). -/
def startEvents : List Event := [.d0, .w]

/-- `STOP` (R137). -/
def stopEvents : List Event := [.d0, .w, .c1, .w, .d1, .w]

/-- One data bit time (R130): clock low, data line to the bit value, clock released. -/
def bitEvents (bit : Bool) : List Event := [.c0, .w, if bit then .d1 else .d0, .w, .c1, .w]

/-- The bits of a byte in the order they are sent, least significant first (20_memory.md R42). -/
def bitsOf (b : Byte) : List Bool := (List.range 8).map b.getLsbD

/-- The data phase of WRBYTE (R130). -/
def dataEvents (b : Byte) : List Event := (bitsOf b).flatMap bitEvents

/-- The acknowledgment phase of WRBYTE, the receiver answering `ack` (R132, R133). -/
def ackEvents (ack : Bool) : List Event :=
  let sample : List Event := [.c0, .w, .d1, .w, .c1, .w, .samp ack]
  let force : List Event := if forcesLow ack then [.d0, .w] else []
  let finish : List Event := [.c0, .w]
  sample ++ force ++ finish

/-- `WRBYTE b` (R129). -/
def byteEvents (b : Byte) (ack : Bool) : List Event := dataEvents b ++ ackEvents ack

/-! ### Operations on the bus -/

/-- `START` (R128): emitted whatever the lines are. -/
def Bus.start (b : Bus) : Bus := b.emitAll startEvents

/-- `STOP` (R137). -/
def Bus.stop (b : Bus) : Bus := b.emitAll stopEvents

/-- `WRBYTE v` (R129), the acknowledgment level drawn from the receiver (R136). -/
def Bus.wrbyte (b : Bus) (v : Byte) : Bus := b.dropAck.emitAll (byteEvents v b.nextAck)

/-- The bytes of a frame, one after another; return values are ignored (R138). -/
def Bus.wrbytes (b : Bus) (vs : List Byte) : Bus := vs.foldl Bus.wrbyte b

/-- `FRAME` (R138): every byte is written and the stop issued whatever is acknowledged. -/
def Bus.frame (b : Bus) (vs : List Byte) : Bus := (b.start.wrbytes vs).stop

/-- The three frames of a display update (R141, 30_encoding.md R69). -/
def updateFrames (seg : List Byte) (bright : Brightness) : List (List Byte) :=
  [[encodeCommand .data], encodeCommand .addr :: seg, [encodeCommand (.on bright)]]

/-- `UPDATE seg, brightness` (R141). -/
def Bus.update (b : Bus) (seg : List Byte) (bright : Brightness) : Bus :=
  (updateFrames seg bright).foldl Bus.frame b

/-! ### Meanings -/

/-- `START` (R128). -/
def execStart (s : State) : Outcome := .next { s with bus := s.bus.start }

/-- `WRBYTE b` (R129): "Returns success unconditionally" (R134). -/
def execWrbyte (b : Byte) (s : State) : Outcome :=
  .next { s with bus := s.bus.wrbyte b, result := .bit true }

/-- `STOP` (R137). -/
def execStop (s : State) : Outcome := .next { s with bus := s.bus.stop }

/-- `FRAME b0 .. bk` (R138). -/
def execFrame (first : Byte) (rest : List Byte) (s : State) : Outcome :=
  .next { s with bus := s.bus.frame (first :: rest) }

/-- `UPDATE` (R141), in its two operand forms (30_encoding.md R76). -/
def execUpdate (form : UpdateForm) (s : State) : Outcome :=
  match form with
  | .regs => .next { s with bus := s.bus.update s.seg.toList s.fmt.bright }
  | .explicit seg bright => .next { s with bus := s.bus.update seg.toList bright }

end Sys2Proof.Machine
end

