-- ==== Sys2Proof/Machine/Acquire.lean ====
section
/-! DEFINITION. The acquisition polling state machine: ADCSTART, ADCPOLL, ADCREAD, REFRESH, ACQSTEP
(43_acquisition_fsm.md), and the indicator start it issues (44_scheduler_indicator.md R185). -/

namespace Sys2Proof.Machine

open Sys2Proof

/-- `INDSTART` (44_scheduler_indicator.md R185). -/
def indStart (s : State) : State := { s with ecnt := 0, duration := Config.flashTicks }

/-- The rounded digits of a raw code: `ROUND(EXTRACT(MVCONV(RAW), N), N, FMT.SHOWN)` (40_digit_pipeline.md R97). -/
def refreshCells (raw : RawCode) (fmt : Fmt) : List Digit :=
  roundDigits (extractDigits (toMillivolts raw).toNat Config.width) fmt.shown

/-- `REFRESH` (R168): the six steps in order, the last of them the blocking display update. -/
def refresh (s : State) : State :=
  { s with
    raw := adcRead s
    sample := toMillivolts (adcRead s)
    cell := cellsOf (refreshCells (adcRead s) s.fmt)
    seg := segsOf (composeCells (refreshCells (adcRead s) s.fmt) s.fmt)
    bus := s.bus.update (composeCells (refreshCells (adcRead s) s.fmt) s.fmt) s.fmt.bright
    envDraws := adcReadDraws s }

/-- The arm Idle of ACQSTEP (R161). -/
def acqIdleArm (s : State) : State :=
  if intervalElapsed s.icnt then { s with icnt := 0, acq := .started } else s

/-- The arm Started of ACQSTEP (R162): ADCSTART; INDSTART; the state becomes Converting. -/
def acqStartedArm (s : State) : State := { indStart (adcStart s) with acq := .converting }

/-- The arm Converting of ACQSTEP (R167): on completion REFRESH, then Idle; no timeout (R169). -/
def acqConvertingArm (s : State) : State :=
  if adcPoll s then { refresh s with acq := .idle } else s

/-- `ACQSTEP`: the arm selected by `ACQ`, at most one transition (R160, R171). -/
def acqStep (s : State) : State :=
  match s.acq with
  | .idle => acqIdleArm s
  | .started => acqStartedArm s
  | .converting => acqConvertingArm s

/-- `ADCSTART` (R163). -/
def execAdcstart (s : State) : Outcome := .next (adcStart s)

/-- `ADCPOLL` (R164). -/
def execAdcpoll (s : State) : Outcome := .next { s with result := .bit (adcPoll s) }

/-- `ADCREAD` (R165): the code is returned; `RAW` is written by REFRESH only. -/
def execAdcread (s : State) : Outcome :=
  .next { s with result := .raw (adcRead s), envDraws := adcReadDraws s }

/-- `REFRESH` (R168). -/
def execRefresh (s : State) : Outcome := .next (refresh s)

/-- `ACQSTEP`, the row of the arm Idle (R161). Which arm runs "is decided by the register" (30_encoding.md R74): the
field `acq` of the word is a device of the table (DEDUCED, log 23). -/
def execAcqstepIdle (s : State) : Outcome := .next (acqStep s)

/-- `ACQSTEP`, the row of the arm Started (R162); the register decides (log 23). -/
def execAcqstepStarted (s : State) : Outcome := .next (acqStep s)

/-- `ACQSTEP`, the row of the arm Converting (R167); the register decides (log 23). -/
def execAcqstepConverting (s : State) : Outcome := .next (acqStep s)

end Sys2Proof.Machine
end

