-- ==== Sys2Proof/Machine/Scheduler.lean ====
section
/-! DEFINITION. Tick path, indicator and scheduler pass: TICKISR, TICKPOLL, INDSTART, INDSTEP, PASS
(44_scheduler_indicator.md). -/

namespace Sys2Proof.Machine

open Sys2Proof

/-- `TICKPOLL` (R181): the flag is read and cleared atomically (20_memory.md R53); a set flag advances both counters,
modulo 256 (R182). -/
def tickPoll (s : State) : State :=
  if s.tickflag then { s with tickflag := false, icnt := s.icnt + 1, ecnt := s.ecnt + 1 }
  else { s with tickflag := false }

/-- `INDSTEP` (R186). -/
def indStep (s : State) : State :=
  if flashActive s.duration then
    if flashOn s.ecnt s.duration then { s with ind := true } else { s with ind := false, duration := 0 }
  else s

/-- `PASS` (R188): TICKPOLL; ACQSTEP; INDSTEP. -/
def passStep (s : State) : State := indStep (acqStep (tickPoll s))

/-- `TICKISR` (R180). -/
def execTickisr (s : State) : Outcome := .next (takeTick s)

/-- `TICKPOLL` (R181). -/
def execTickpoll (s : State) : Outcome := .next (tickPoll s)

/-- `INDSTART` (R185). -/
def execIndstart (s : State) : Outcome := .next (indStart s)

/-- `INDSTEP` (R186). -/
def execIndstep (s : State) : Outcome := .next (indStep s)

/-- `PASS` (R188). -/
def execPass (s : State) : Outcome := .next (passStep s)

end Sys2Proof.Machine
end

