-- ==== Sys2Proof/Machine/Dispatch.lean ====
section
/-! DEFINITION. The dispatch of instructions to their meanings, one arm per constructor of Instr. -/

namespace Sys2Proof.Machine

open Sys2Proof

/-- The meaning of an instruction. -/
def exec (i : Instr) (s : State) : Host.Outcome State Fault Refusal :=
  match i with
  | .dataCmd => Sys2Proof.Machine.execDataCmd s
  | .addrCmd => Sys2Proof.Machine.execAddrCmd s
  | .dispOn bright => Sys2Proof.Machine.execDispOn bright s
  | .dispOff => Sys2Proof.Machine.execDispOff s
  | .segb dp pattern => Sys2Proof.Machine.execSegb dp pattern s
  | .reset => Sys2Proof.Machine.execReset s
  | .mvconv raw => Sys2Proof.Machine.execMvconv raw s
  | .extract value width => Sys2Proof.Machine.execExtract value width s
  | .round form => Sys2Proof.Machine.execRound form s
  | .compose form => Sys2Proof.Machine.execCompose form s
  | .start => Sys2Proof.Machine.execStart s
  | .wrbyte b => Sys2Proof.Machine.execWrbyte b s
  | .stop => Sys2Proof.Machine.execStop s
  | .frame first rest => Sys2Proof.Machine.execFrame first rest s
  | .update form => Sys2Proof.Machine.execUpdate form s
  | .adcstart => Sys2Proof.Machine.execAdcstart s
  | .adcpoll => Sys2Proof.Machine.execAdcpoll s
  | .adcread => Sys2Proof.Machine.execAdcread s
  | .refresh => Sys2Proof.Machine.execRefresh s
  | .acqstepIdle => Sys2Proof.Machine.execAcqstepIdle s
  | .acqstepStarted => Sys2Proof.Machine.execAcqstepStarted s
  | .acqstepConverting => Sys2Proof.Machine.execAcqstepConverting s
  | .tickisr => Sys2Proof.Machine.execTickisr s
  | .tickpoll => Sys2Proof.Machine.execTickpoll s
  | .indstart => Sys2Proof.Machine.execIndstart s
  | .indstep => Sys2Proof.Machine.execIndstep s
  | .pass => Sys2Proof.Machine.execPass s

end Sys2Proof.Machine
end

