-- ==== Sys2Proof/Machine/Agents.lean ====
section
/-! DEFINITION. Who steps next: the next line of the stimulus script (30_encoding.md R76), and without one any enabled
agent (00_scope.md R8, 44_scheduler_indicator.md R189). -/

namespace Sys2Proof.Machine

open Sys2Proof

/-- The state a script line runs in: the line taken off the script, samples it does not cover being 0 (R76). -/
def State.popLine (s : State) (rest : List Stimulus) : State :=
  { s with script := rest, bus := { s.bus with scripted := true } }

/-- `ACKS a0 .. ak` fixes the next answers; what an earlier line fixed for later samples stays (R76, log 27). -/
def fixAcks (levels : List Bool) (s : State) : State :=
  { s with bus := { s.bus with acks := levels ++ s.bus.acks.drop levels.length } }

/-- The instruction a script line's bytes hold; bytes after it are not read (log 4). -/
def fetchWord (format : Format) (bytes : List Byte) : Option Instr := (decode format bytes).map Prod.fst

/-- One script line (R76), in the state it runs in. -/
def runLine (line : Stimulus) (s : State) : Outcome :=
  match line with
  | .word format bytes =>
    match fetchWord format bytes with
    | some i => exec i s
    | none => .refused .undecodable
  | .adcDone code => if s.adcBusy then .next (adcComplete code s) else .refused .adcNotEnabled
  | .acks levels => .next (fixAcks levels s)

/-- The state a step without a script runs in: samples are free values, the free values used up. -/
def State.unscripted (s : State) : State :=
  { s with envDraws := s.envDraws + 1, bus := { s.bus with scripted := false } }

/-- Without a script any enabled agent steps: the tick interrupt (always enabled, R207), the peripheral while a
conversion is in flight (R166), or MAIN, which executes PASS (R189). The choice is a free value (log 2). -/
def freeStep (s : State) : Outcome :=
  match Config.freeAgent s.envDraws with
  | .main => exec .pass s.unscripted
  | .tick => exec .tickisr s.unscripted
  | .adc =>
    if s.adcBusy then .next (adcComplete (Config.freeConversion s.envDraws) s.unscripted)
    else exec .pass s.unscripted

/-- A script of the one instruction a table word holds. -/
def tableScript (nbits w : Nat) : List Stimulus := [.word (tableFormat w) (wordBytes nbits w)]

end Sys2Proof.Machine
end

