-- ==== Sys2Proof/Machine/Step.lean ====
section
/-! DEFINITION. One step of the machine, and how an instruction is placed where the next step takes it. -/

namespace Sys2Proof.Machine

open Sys2Proof

/-- One step: the next line of the script, or without one a step of an enabled agent (Machine/Agents.lean). -/
def step (s : State) : Host.Outcome State Fault Refusal :=
  match s.script with
  | [] => freeStep s
  | line :: rest => runLine line (s.popLine rest)

/-- The state with one instruction, numbered as the opcode table numbers it, as its whole script (log 1). -/
def State.withFetchWord (s : State) (nbits w : Nat) : State := { s with script := tableScript nbits w }

end Sys2Proof.Machine
end

