-- ==== Sys2Proof/Safety.lean ====
section
/-! DEFINITION. What claims are stated in: the idle bus, the legal format, the frame relations, the invariant. -/

namespace Sys2Proof.Machine

open Sys2Proof

/-- The bus is idle: both lines released (42_serial_driver.md R127). -/
def Bus.isIdle (b : Bus) : Prop := b.clkOut = .rel ∧ b.dioOut = .rel

/-- Every cell address of the store is one of the N cells (20_memory.md R49). -/
def Memory.inSpace (m : Memory) : Prop := ∀ c ∈ m, c.1 < Config.width

/-- The number a cell array shows, index 0 most significant (40_digit_pipeline.md R95). -/
def cellsValue (ds : List Digit) : Nat := ds.foldl (fun acc d => 10 * acc + d.val) 0

/-- What every step keeps. -/
structure Inv (s : State) : Prop where
  /-- the cell store keeps its canonical form -/
  cells_wf : s.bus.rcv.cells.wf
  /-- the store holds no address but the N cells (the addresses 20_memory.md R49 names; that there are no others is log 16) -/
  cells_inSpace : s.bus.rcv.cells.inSpace
  /-- the lines are where the trace left them (42_serial_driver.md R126) -/
  clk_read : (readWire s.bus.wire).clk = s.bus.clkOut
  dio_read : (readWire s.bus.wire).dio = s.bus.dioOut
  /-- the receiver's reader is the reading of the trace (R140) -/
  reader_read : (readWire s.bus.wire).reader = s.bus.rcv.reader
  /-- at most eight data bits are pending (R140) -/
  bits_le : s.bus.rcv.reader.bits.length ≤ 8
  /-- the receiver is in a frame when the reading is (PRESUMED, log 15) -/
  frame_read : s.bus.rcv.frame = .idle ↔ s.bus.rcv.reader.inFrame = false
  /-- "Set once at startup in this design" (10_state.md R18) -/
  fmt_init : s.fmt = s.fmtInit
  /-- a conversion in flight is not complete (43_acquisition_fsm.md R163 with decision D30, R166) -/
  adc_excl : ¬(s.adcBusy = true ∧ s.adcDone = true)
  /-- Converting is entered only by a start (10_state.md R25) -/
  converting_started : s.acq = .converting → s.adcBusy = true ∨ s.adcDone = true
  /-- a flash is inactive or of the fixed length (10_state.md R20) -/
  duration_cases : s.duration = 0 ∨ s.duration = Config.flashTicks
  /-- the indicator is lit only while a flash is active (44_scheduler_indicator.md R186) -/
  ind_active : s.ind = true → s.duration = Config.flashTicks

/-- An operation of the table, of any format, is answered with a next state. -/
def Completes (i : Instr) (s : State) : Prop := ∃ t, exec i s = .next t

end Sys2Proof.Machine
end

