-- ==== Sys2Proof/Certificates/Slice0/Obligations.lean ====
section
/-! DEFINITION. The statements for the provers, each a rule of spec/ or a consequence the spec draws. Where a statement
rests on a decision of the spec or on a convention of the model, its docstring names it. -/

open Sys2Proof Sys2Proof.Machine

/-! ### Vocabulary of the statements -/

namespace Sys2Proof.Claims

/-- One operation after another, stopping where one stops. -/
def thenExec (o : Outcome) (i : Instr) : Outcome :=
  match o with
  | .next s => exec i s
  | .fault r => .fault r
  | .refused r => .refused r

/-- A list of operations, one after another. -/
def runInstrs (is : List Instr) (s : State) : Outcome := is.foldl thenExec (.next s)

/-- An outcome with its next state changed. -/
def mapNext (f : State → State) (o : Outcome) : Outcome :=
  match o with
  | .next s => .next (f s)
  | .fault r => .fault r
  | .refused r => .refused r

/-- `t` differs from `s` at most in the bus and what is on it. -/
def OnlyBus (s t : State) : Prop := t = { s with bus := t.bus }

/-- The operations that drive the bus: START, WRBYTE, STOP, FRAME, UPDATE, and REFRESH, ACQSTEP, PASS, which run UPDATE. -/
def drivesBus (i : Instr) : Bool :=
  match i with
  | .start => true
  | .wrbyte _ => true
  | .stop => true
  | .frame _ _ => true
  | .update _ => true
  | .refresh => true
  | .acqstepIdle => true
  | .acqstepStarted => true
  | .acqstepConverting => true
  | .pass => true
  | .reset => false
  | .dataCmd => false
  | .addrCmd => false
  | .dispOn _ => false
  | .dispOff => false
  | .segb _ _ => false
  | .mvconv _ => false
  | .extract _ _ => false
  | .round _ => false
  | .compose _ => false
  | .adcstart => false
  | .adcpoll => false
  | .adcread => false
  | .tickisr => false
  | .tickpoll => false
  | .indstart => false
  | .indstep => false

/-- The explicit operands R205 refuses. -/
def refusedOperands (i : Instr) : Prop :=
  match i with
  | .round (.explicit cells _) => cells = [] ∨ ∃ c ∈ cells, 9 < c
  | .compose (.explicit cells _) => cells = [] ∨ ∃ c ∈ cells, 9 < c
  | _ => False

/-- The byte the composer's five steps give cell `i` (41_display_composer.md R110 to R114), in closed form: no running
`lead` bit, but "no non-zero cell has been seen yet". -/
def composedByte (ds : List Digit) (fmt : Fmt) (i : Nat) (d : Digit) : Byte :=
  if fmt.shown ≤ i then 0x00
  else
    (if fmt.blank = true ∧ (∀ e ∈ ds.take (i + 1), e = 0) ∧ i + 1 ≠ ds.length then 0x00
      else Config.lutTable.getD d.val 0)
    ||| (if fmt.dp = some i then 0x80 else 0x00)

/-- The events of one byte write: eight bit times, least significant bit first, and the acknowledgment bit time
(42_serial_driver.md R130, R132). -/
def byteTrace (v : Byte) (ack : Bool) : List Event :=
  let bits : List Event := (List.range 8).flatMap fun k => [.c0, .w, if v.getLsbD k then .d1 else .d0, .w, .c1, .w]
  let sample : List Event := [.c0, .w, .d1, .w, .c1, .w, .samp ack]
  let force : List Event := if ack then [.d0, .w] else []
  let finish : List Event := [.c0, .w]
  bits ++ sample ++ force ++ finish

/-- The events of one frame whose bytes are answered as listed (42_serial_driver.md R138). -/
def frameTrace (vs : List Byte) (acks : List Bool) : List Event :=
  let start : List Event := [.d0, .w]
  let stop : List Event := [.d0, .w, .c1, .w, .d1, .w]
  start ++ (vs.zip acks).flatMap (fun p => byteTrace p.1 p.2) ++ stop

/-- What a reader of the trace sees of one frame (42_serial_driver.md R140): the bytes in order, and after a byte not
acknowledged the start-shaped fall of R133. -/
def frameItems (vs : List Byte) (acks : List Bool) : List Item :=
  let bytes : List Item := (vs.zip acks).flatMap fun p => .byte p.1 :: if p.2 then [.start] else []
  Item.start :: (bytes ++ [Item.stop])

/-- The three frames of a display update (30_encoding.md R69, R71). -/
def updateBytes (seg : List Byte) (bright : Brightness) : List (List Byte) :=
  [[0x40], 0xC0 :: seg, [BitVec.ofNat 8 (0x88 + bright.toNat)]]

/-- The seven answers of an update, frame by frame. -/
def updateTrace (seg : List Byte) (bright : Brightness) (acks : List Bool) : List Event :=
  frameTrace [0x40] (acks.take 1) ++ frameTrace (0xC0 :: seg) ((acks.drop 1).take 5)
    ++ frameTrace [BitVec.ofNat 8 (0x88 + bright.toNat)] (acks.drop 6)

/-- The items of an update. -/
def updateItems (seg : List Byte) (bright : Brightness) (acks : List Bool) : List Item :=
  frameItems [0x40] (acks.take 1) ++ frameItems (0xC0 :: seg) ((acks.drop 1).take 5)
    ++ frameItems [BitVec.ofNat 8 (0x88 + bright.toNat)] (acks.drop 6)

/-- The lines are where the trace left them (42_serial_driver.md R126). -/
def ReadsLines (b : Bus) : Prop := (readWire b.wire).clk = b.clkOut ∧ (readWire b.wire).dio = b.dioOut

/-- `k` times: a tick and a pass. -/
def tickPass (k : Nat) : List Instr := (List.replicate k [Instr.tickisr, Instr.pass]).flatten

/-- `k` times: a tick, its consumption, one step of the indicator. -/
def tickFlash (k : Nat) : List Instr := (List.replicate k [Instr.tickisr, Instr.tickpoll, Instr.indstep]).flatten

end Sys2Proof.Claims

open Sys2Proof.Claims

/-! ### Encoding -/

/-- Words written out from the tables of 30_encoding.md R61 to R65 and R74 decode to their instructions; operand bytes
are laid out as log 4 says. -/
def Obligations.WrittenWordsDecode : Prop :=
  decode .cmd [0x40] = some (.dataCmd, [])
    ∧ decode .cmd [0xC0] = some (.addrCmd, [])
    ∧ decode .cmd [0x8B] = some (.dispOn 3, [])
    ∧ decode .cmd [0x80] = some (.dispOff, [])
    ∧ decode .segb [0xDB] = some (.segb true 0x5B, [])
    ∧ decode .op [0x01, 0x00, 0x02] = some (.mvconv 512, [])
    ∧ decode .op [0x08, 0x01, 0xC0, 0x3F] = some (.frame 0xC0 [0x3F], [])
    ∧ decode .op [0x2E] = some (.acqstepStarted, [])
    ∧ decode .op [0x13, 0x77] = some (.pass, [0x77])

/-- Every well-formed instruction, with every operand value the encoding admits, is read back from its bytes, whatever
follows them. -/
def Obligations.DecodeEncodeAgree : Prop :=
  ∀ (i : Instr) (tail : List Byte), i.wf = true → decode i.format (encode i ++ tail) = some (i, tail)

/-- What the decoder answers is well formed and of the format it was read in. -/
def Obligations.DecodedIsWellFormed : Prop :=
  ∀ (f : Format) (bs : List Byte) (i : Instr) (tail : List Byte),
    decode f bs = some (i, tail) → i.wf = true ∧ i.format = f ∧ ∃ used, used ≠ [] ∧ bs = used ++ tail

/-- Reserved selectors select no operation: OPSEL 0x14 to 0x1F, and ACQSTEP with acq 3 (30_encoding.md R74, R75); nor does
a byte with bit 7 set (log 5). For every operation but ACQSTEP the field `acq`, bits [6:5], is ignored (R74). -/
def Obligations.SelectorFields : Prop :=
  (∀ (b : Byte) (bs : List Byte),
    (0x14 ≤ b.toNat % 32 ∨ b.toNat % 128 = 0x6E ∨ 128 ≤ b.toNat) → decode .op (b :: bs) = none)
  ∧ (∀ (b : Byte) (bs : List Byte), b.toNat < 128 → b.toNat % 32 ≠ 0x0E →
    decode .op (b :: bs) = decode .op (BitVec.ofNat 8 (b.toNat % 32) :: bs))

/-- A byte in command position is one of 0x40, 0xC0, 0x88 to 0x8F, 0x80, or no command (30_encoding.md R60 to R64, R75). -/
def Obligations.CommandBytesDefined : Prop :=
  ∀ b : Byte, (decode .cmd [b]).isSome = true ↔
    b = 0x40 ∨ b = 0xC0 ∨ (0x88 ≤ b.toNat ∧ b.toNat ≤ 0x8F) ∨ b = 0x80

/-- The display-on byte is `0x88 | zext_8(FMT.BRIGHT)`, and OR and addition agree; it decodes to the brightness, and it is
the byte of the last frame of a display update on the registers. -/
def Obligations.DisplayOnByte : Prop :=
  (∀ bright : Brightness, encode (.dispOn bright) = [0x88 ||| bright.setWidth 8]
    ∧ 0x88 ||| bright.setWidth 8 = BitVec.ofNat 8 (0x88 + bright.toNat)
    ∧ decode .cmd [BitVec.ofNat 8 (0x88 + bright.toNat)] = some (.dispOn bright, []))
  ∧ ∀ s : State, ∃ (t : State) (earlier : Bus), exec (.update .regs) s = .next t
    ∧ t.bus = earlier.frame (encode (.dispOn s.fmt.bright))

/-! ### Steps -/

/-- A step runs the decoded instruction of the next script line, the line taken off the script and samples it does not
cover answered 0 (log 1, log 14). -/
def Obligations.StepRunsDecodedWord : Prop :=
  ∀ (s : State) (f : Format) (bs tail : List Byte) (i : Instr) (rest : List Stimulus),
    s.script = .word f bs :: rest → decode f bs = some (i, tail) →
      step s = exec i { s with script := rest, bus := { s.bus with scripted := true } }

/-- A table word placed by `withFetchWord` is what the very next step runs. -/
def Obligations.StepRunsFetchedTableWord : Prop :=
  ∀ (s : State) (nbits w : Nat) (i : Instr), decodeTableWord nbits w = some i →
    step (s.withFetchWord nbits w) = exec i { s with script := [], bus := { s.bus with scripted := true } }

/-- The script lines of the outside agents (30_encoding.md R76): ADCDONE is the peripheral's step while a conversion is in
flight and not enabled otherwise (43_acquisition_fsm.md R166); ACKS fixes the next answers (log 27). -/
def Obligations.OutsideLinesStep : Prop :=
  (∀ (s : State) (code : RawCode) (rest : List Stimulus), s.script = .adcDone code :: rest → s.adcBusy = true →
    step s = .next { s with script := rest, bus := { s.bus with scripted := true }
                            adcResult := code, adcDone := true, adcBusy := false })
  ∧ (∀ (s : State) (code : RawCode) (rest : List Stimulus), s.script = .adcDone code :: rest → s.adcBusy = false →
    step s = .refused .adcNotEnabled)
  ∧ (∀ (s : State) (levels : List Bool) (rest : List Stimulus), s.script = .acks levels :: rest →
    ∃ t, step s = .next t ∧ t = { s with script := rest, bus := t.bus }
      ∧ t.bus = { s.bus with scripted := true, acks := t.bus.acks }
      ∧ t.bus.answers levels.length = levels)

/-- Without a script the step is one of an enabled agent: MAIN's PASS, TICK's TICKISR, or the peripheral's completion
while a conversion is in flight; it never stops (00_scope.md R8, 44_scheduler_indicator.md R189, log 2). -/
def Obligations.FreeStepIsOneAgents : Prop :=
  ∀ s : State, s.script = [] → ∃ t u, step s = .next t
    ∧ u = { s with envDraws := u.envDraws, bus := { s.bus with scripted := false } }
    ∧ (exec .pass u = .next t ∨ exec .tickisr u = .next t
      ∨ (s.adcBusy = true ∧ ∃ code, t = { u with adcResult := code, adcDone := true, adcBusy := false }))

/-! ### Digit pipeline (40_digit_pipeline.md) -/

/-- MVCONV stores in SAMPLE the millivolts nearest to `5000 * raw / 1024`, ties upward, at most 4995; nothing else but the
returned value changes. The tie rule is the spec's decision D2; the returned value is log 12's. -/
def Obligations.MvconvIsNearest : Prop :=
  ∀ (raw : RawCode) (s : State), ∃ v : Millivolts,
    exec (.mvconv raw) s = .next { s with sample := v, result := .millivolts v }
      ∧ 1024 * v.toNat ≤ 5000 * raw.toNat + 512 ∧ 5000 * raw.toNat + 512 < 1024 * (v.toNat + 1)
      ∧ v.toNat ≤ 4995

/-- EXTRACT returns `cells[i] = (value div 10^(width-1-i)) mod 10` for every value and width, in CELL when the width is N
(R91's closed form); another width fits no register (log 13). -/
def Obligations.ExtractClosedForm : Prop :=
  ∀ (value width : Nat) (s : State), ∃ t ds, exec (.extract value width) s = .next t
    ∧ t = { s with cell := t.cell, result := .cells ds }
    ∧ ds.length = width
    ∧ (∀ (i : Nat) (h : i < ds.length), ds[i].val = value / 10 ^ (width - 1 - i) % 10)
    ∧ (width = 4 → t.cell.toList = ds) ∧ (width ≠ 4 → t.cell = s.cell)

/-- The laws of EXTRACT (R92): reconstruction, truncation, leading zeros. -/
def Obligations.ExtractLaws : Prop :=
  (∀ value width, value < 10 ^ width → cellsValue (extractDigits value width) = value)
  ∧ (∀ value width, extractDigits value width = extractDigits (value % 10 ^ width) width)
  ∧ (∀ (value width k : Nat), k ≤ width → value < 10 ^ k → ∀ (i : Nat) (h : i < (extractDigits value width).length),
      i < width - k → (extractDigits value width)[i] = 0)

/-- ROUND on the registers with `shown < N`: the last cell becomes 0 and the number shown is rounded up exactly when it
exceeded 5, the carry out of cell 0 dropped (R93, R94, R95 item 2). Which cell is rounded when `shown < N - 1` is the
spec's decision D3. -/
def Obligations.RoundDropsOneDigit : Prop :=
  ∀ (shown : Nat) (s : State), shown < 4 → ∃ t, exec (.round (.shown shown)) s = .next t
    ∧ t = { s with cell := t.cell, result := .cells t.cell.toList }
    ∧ t.cell[3] = 0
    ∧ cellsValue t.cell.toList
        = (cellsValue s.cell.toList - s.cell[3].val + (if 5 < s.cell[3].val then 10 else 0)) % 10000

/-- ROUND takes `shown` from FMT when no operand is given (30_encoding.md R76), and with `shown >= N` it is the identity
(R93, R95 item 4). -/
def Obligations.RoundForms : Prop :=
  (∀ s : State, exec (.round .regs) s = exec (.round (.shown s.fmt.shown)) s)
  ∧ (∀ (shown : Nat) (s : State), 4 ≤ shown →
      exec (.round (.shown shown)) s = .next { s with result := .cells s.cell.toList })

/-- A last digit of 0 to 5 leaves every digit left of it unchanged, and a second ROUND changes nothing (R95 items 1
and 3), for every width. -/
def Obligations.RoundNonRoundingAndIdempotent : Prop :=
  (∀ (ds : List Digit) (d : Digit) (shown : Nat), shown < ds.length + 1 → d.val ≤ 5 →
      roundDigits (ds ++ [d]) shown = ds ++ [0])
  ∧ (∀ (ds : List Digit) (shown : Nat), roundDigits (roundDigits ds shown) shown = roundDigits ds shown)

/-- ROUND and COMPOSE with explicit cells complete when there is a cell and none is above 9, and are refused otherwise
(60_exceptions.md R205, the spec's decision D21); the array goes to CELL or SEG when it has N cells (log 13). -/
def Obligations.ExplicitCells : Prop :=
  ∀ (cells : List Nat) (shown : Nat) (fmt : Fmt) (s : State),
    (cells = [] → exec (.round (.explicit cells shown)) s = .refused .widthZero
      ∧ exec (.compose (.explicit cells fmt)) s = .refused .widthZero)
    ∧ ((∃ c ∈ cells, 9 < c) → exec (.round (.explicit cells shown)) s = .refused .cellAboveNine
      ∧ exec (.compose (.explicit cells fmt)) s = .refused .cellAboveNine)
    ∧ (∀ ds : List Digit, ds ≠ [] → cells = ds.map Fin.val →
      exec (.round (.explicit cells shown)) s
        = .next { s with cell := if ds.length = 4 then cellsOf (roundDigits ds shown) else s.cell
                         result := .cells (roundDigits ds shown) }
      ∧ exec (.compose (.explicit cells fmt)) s
        = .next { s with seg := if ds.length = 4 then segsOf (composeCells ds fmt) else s.seg
                         result := .segs (composeCells ds fmt) })

/-! ### Composer (41_display_composer.md) -/

/-- COMPOSE gives each cell the byte of the five steps: lookup, leading-zero blanking with the rightmost cell exempt,
decimal point after blanking, digit limit regardless of the above. -/
def Obligations.ComposeFiveSteps : Prop :=
  (∀ (ds : List Digit) (fmt : Fmt) (i : Nat) (d : Digit), ds[i]? = some d →
      (composeCells ds fmt)[i]? = some (composedByte ds fmt i d))
  ∧ (∀ (ds : List Digit) (fmt : Fmt), (composeCells ds fmt).length = ds.length)
  ∧ (∀ s : State, ∃ t, exec (.compose .regs) s = .next t
      ∧ t = { s with seg := t.seg, result := .segs (composeCells s.cell.toList s.fmt) }
      ∧ t.seg.toList = composeCells s.cell.toList s.fmt)

/-- Every byte the composer gives is a table entry, a table entry with the point, blank, or the point alone (R115
item 5), and the byte of a cell does not depend on the cells to its right (R115 item 6). -/
def Obligations.ComposeAlphabetAndScope : Prop :=
  (∀ (ds : List Digit) (fmt : Fmt) (b : Byte), b ∈ composeCells ds fmt →
    b &&& 0x7F = 0x00 ∨ b &&& 0x7F ∈ Config.lutTable)
  ∧ (∀ (left right₁ right₂ : List Digit) (fmt : Fmt), right₁.length = right₂.length →
    (composeCells (left ++ right₁) fmt).take left.length = (composeCells (left ++ right₂) fmt).take left.length)

/-! ### Serial driver (42_serial_driver.md) -/

/-- START emits `D0 W` in any state, drives DIO low and leaves CLK as it is (R128, the spec's decision D25); from an idle
bus the reader sees a start condition (R140). -/
def Obligations.StartCondition : Prop :=
  ∀ s : State, ∃ t, exec .start s = .next t ∧ OnlyBus s t
    ∧ t.bus.wire = s.bus.wire ++ [Event.d0, Event.w] ∧ t.bus.clkOut = s.bus.clkOut ∧ t.bus.dioOut = .low
    ∧ (ReadsLines s.bus → s.bus.isIdle → (readWire t.bus.wire).items = (readWire s.bus.wire).items ++ [Item.start])

/-- STOP drives data low, releases the clock, then releases the data: three line operations and their waits, from any
entry state, and both lines end released; entered with the clock low, as after a WRBYTE, its `D1` is a stop edge and
nothing else is. -/
def Obligations.StopCondition : Prop :=
  decode .op [0x07] = some (.stop, [])
  ∧ ∀ s : State, ∃ t, exec .stop s = .next t ∧ OnlyBus s t
    ∧ t.bus.wire = s.bus.wire ++ [Event.d0, Event.w, Event.c1, Event.w, Event.d1, Event.w] ∧ t.bus.isIdle
    ∧ (ReadsLines s.bus → s.bus.clkOut = .low → (readWire s.bus.wire).reader.bits = [] →
        (readWire t.bus.wire).items = (readWire s.bus.wire).items ++ [Item.stop])

/-- Bit `k` of a byte is sent in the `k`-th bit time, least significant first: waits aside, a byte write begins with eight
bit times, each the clock driven low, the data line released for a 1 or driven low for a 0, and the clock released. -/
def Obligations.ByteBitsLowFirst : Prop :=
  ∀ (v : Byte) (s : State), ∃ t new, exec (.wrbyte v) s = .next t ∧ t.bus.wire = s.bus.wire ++ new
    ∧ (new.filter (fun e => e ≠ .w)).take 24
        = [v[0], v[1], v[2], v[3], v[4], v[5], v[6], v[7]].flatMap
            (fun bit => [Event.c0, if bit then Event.d1 else Event.d0, Event.c1])

/-- WRBYTE emits eight bit times, least significant bit first, then the acknowledgment bit time, forcing DIO low when the
sample is high, and returns 1 in either case (R129 to R134; event order by the spec's decisions D9 and D10). -/
def Obligations.ByteWriteTrace : Prop :=
  ∀ (v : Byte) (s : State), ∃ t, exec (.wrbyte v) s = .next t
    ∧ t = { s with bus := t.bus, result := .bit true }
    ∧ t.bus.wire = s.bus.wire ++ byteTrace v s.bus.nextAck
    ∧ t.bus.clkOut = .low ∧ t.bus.dioOut = (if s.bus.nextAck then .low else .rel)
    ∧ t.bus.acks = s.bus.acks.tail

/-- FRAME writes every byte between one START and one STOP, whatever is acknowledged; `m` bytes of which `u` are not
acknowledged take `28 m + u + 4` waits (R138), and the bus is idle after. -/
def Obligations.FrameTraceAndWaits : Prop :=
  ∀ (first : Byte) (rest : List Byte) (s : State), ∃ t, exec (.frame first rest) s = .next t ∧ OnlyBus s t
    ∧ t.bus.wire = s.bus.wire ++ frameTrace (first :: rest) (s.bus.answers (rest.length + 1))
    ∧ waits t.bus.wire
        = waits s.bus.wire + (28 * (rest.length + 1) + (s.bus.answers (rest.length + 1)).count true + 4)
    ∧ t.bus.isIdle

/-- Reading a frame back from the trace (R140): from an idle bus, one start, the bytes in order, one stop; a byte not
acknowledged adds the start-shaped fall of DIO. -/
def Obligations.FrameReadsBack : Prop :=
  ∀ (first : Byte) (rest : List Byte) (s t : State), ReadsLines s.bus → s.bus.isIdle → exec (.frame first rest) s = .next t →
    (readWire t.bus.wire).items
        = (readWire s.bus.wire).items ++ frameItems (first :: rest) (s.bus.answers (rest.length + 1))
      ∧ (readWire t.bus.wire).reader = Reader.idle ∧ ReadsLines t.bus ∧ t.bus.isIdle

/-- A display update is exactly three frames, in this order: the data command alone, the address command and the four
segment bytes leftmost first, the display-on byte alone; each with its own start and stop (30_encoding.md R69, R141). The
events, their waits and the reading are those of R130 to R140 (the spec's decisions D9, D10). -/
def Obligations.UpdateIsThreeFrames : Prop :=
  ∀ (form : UpdateForm) (s : State), ∃ t seg bright, exec (.update form) s = .next t ∧ OnlyBus s t
    ∧ (form = .regs → seg = s.seg.toList ∧ bright = s.fmt.bright)
    ∧ (∀ g b, form = .explicit g b → seg = g.toList ∧ bright = b)
    ∧ t.bus.wire = s.bus.wire ++ updateTrace seg bright (s.bus.answers 7)
    ∧ waits t.bus.wire = waits s.bus.wire + (208 + (s.bus.answers 7).count true)
    ∧ t.bus.isIdle
    ∧ (ReadsLines s.bus → s.bus.isIdle → (readWire t.bus.wire).items
        = (readWire s.bus.wire).items ++ updateItems seg bright (s.bus.answers 7))

/-- After an update every byte of which is acknowledged, the display's cell `i` holds `seg[i]`, the display is on at the
brightness, and no other cell address changed. Receiver-side view of 20_memory.md R41 and R44, general knowledge in the
spec: PRESUMED, log 15. -/
def Obligations.UpdateReachesDisplay : Prop :=
  ∀ (form : UpdateForm) (s t : State) (seg : List Byte) (bright : Brightness),
    (form = .regs ∧ seg = s.seg.toList ∧ bright = s.fmt.bright
      ∨ ∃ g, form = .explicit g bright ∧ seg = g.toList) →
    s.bus.isIdle → s.bus.rcv.frame = .idle → s.bus.answers 7 = List.replicate 7 false → exec (.update form) s = .next t →
      (∀ i, i < 4 → t.bus.rcv.cells.read i = seg[i]?)
      ∧ (∀ a, 4 ≤ a → t.bus.rcv.cells.read a = s.bus.rcv.cells.read a)
      ∧ t.bus.rcv.on = true ∧ t.bus.rcv.bright = bright ∧ t.bus.rcv.frame = .idle

/-- A byte written in data position and acknowledged is stored at the receiver's current address, no other address
changes, and the address advances (20_memory.md R44; PRESUMED, log 15). -/
def Obligations.ByteWriteStoresAtAddress : Prop :=
  ∀ (v : Byte) (s t : State), s.bus.rcv.frame = .data → s.bus.rcv.reader = ⟨true, []⟩ →
    s.bus.rcv.storable = true → s.bus.nextAck = false → exec (.wrbyte v) s = .next t →
      t.bus.rcv.cells.read s.bus.rcv.addr = some v
      ∧ (∀ a, a ≠ s.bus.rcv.addr → t.bus.rcv.cells.read a = s.bus.rcv.cells.read a)
      ∧ t.bus.rcv.addr = s.bus.rcv.addr + 1

/-- A frame that opens with the address command, all acknowledged, the write mode selected, stores its data bytes at the
addresses 0, 1, ... in order and changes no other (20_memory.md R41, R44; PRESUMED, log 15). -/
def Obligations.FrameStoresDataBytes : Prop :=
  ∀ (data : List Byte) (s t : State), s.bus.isIdle → s.bus.rcv.frame = .idle → s.bus.rcv.autoInc = true →
    data.length ≤ 4 → s.bus.answers (data.length + 1) = List.replicate (data.length + 1) false →
    exec (.frame 0xC0 data) s = .next t →
      (∀ (i : Nat) (h : i < data.length), t.bus.rcv.cells.read i = some data[i])
      ∧ (∀ a, data.length ≤ a → t.bus.rcv.cells.read a = s.bus.rcv.cells.read a)
      ∧ t.bus.rcv.addr = data.length ∧ t.bus.rcv.frame = .idle

/-- A start from an idle bus, an acknowledged command byte of a frame, and the stop that ends a frame the receiver has
followed store nothing: every address reads as before (20_memory.md R41; PRESUMED, log 15). -/
def Obligations.FramingStoresNothing : Prop :=
  (∀ s t : State, s.bus.isIdle → s.bus.rcv.frame = .idle → exec .start s = .next t →
      t.bus.rcv = { s.bus.rcv with reader := ⟨true, []⟩, frame := .command })
  ∧ (∀ (c : Command) (s t : State), s.bus.rcv.frame = .command → s.bus.rcv.reader = ⟨true, []⟩ →
      s.bus.nextAck = false → exec (.wrbyte (encodeCommand c)) s = .next t →
      (∀ a, t.bus.rcv.cells.read a = s.bus.rcv.cells.read a)
      ∧ t.bus.rcv.frame = if c = .addr then .data else .closed)
  ∧ (∀ s t : State, s.bus.clkOut = .low → s.bus.rcv.reader = ⟨true, []⟩ →
      s.bus.rcv.frame = .data ∨ s.bus.rcv.frame = .closed → exec .stop s = .next t →
      t.bus.rcv = { s.bus.rcv with reader := Reader.idle, frame := .idle })

/-- Nothing on the bus reaches the block: neither the receiver's answers nor its contents change any outcome but on the
bus itself (60_exceptions.md R203, 20_memory.md R46). -/
def Obligations.BusNeverRead : Prop :=
  ∀ (i : Instr) (s : State) (b : Bus),
    (∃ t u, exec i s = .next t ∧ exec i { s with bus := b } = .next u ∧ u = { t with bus := u.bus })
    ∨ (∃ r, exec i s = .refused r ∧ exec i { s with bus := b } = .refused r)

/-! ### Acquisition (43_acquisition_fsm.md) -/

/-- In Idle, ACQSTEP changes nothing below the threshold and at or above it zeroes ICNT and enters Started (R161; "at or
above" is the spec's decision D13). -/
def Obligations.IdleArm : Prop :=
  ∀ s : State, s.acq = .idle →
    (s.icnt.toNat < 10 → exec .acqstepIdle s = .next s)
    ∧ (10 ≤ s.icnt.toNat → exec .acqstepIdle s = .next { s with icnt := 0, acq := .started })

/-- In Started, ACQSTEP is ADCSTART, then INDSTART, then the state Converting, unconditionally (R162, R163, R185): a
conversion is in flight, ADC_DONE is 0 and a flash of 5 ticks has begun, and nothing else changes. That the start clears
ADC_DONE is the spec's decision D30 (log 9). -/
def Obligations.StartedArm : Prop :=
  decode .op [0x2E] = some (.acqstepStarted, [])
  ∧ ∀ s : State, s.acq = .started → ∃ a b, exec .adcstart s = .next a ∧ exec .indstart a = .next b
    ∧ exec .acqstepStarted s = .next { b with acq := .converting }
    ∧ exec .acqstepStarted s = .next { s with adcDone := false, adcBusy := true, ecnt := 0, duration := 5
                                              acq := .converting }

/-- In Converting, ACQSTEP changes nothing until the peripheral reports completion; then it is REFRESH and Idle. -/
def Obligations.ConvertingArm : Prop :=
  decode .op [0x4E] = some (.acqstepConverting, [])
  ∧ ∀ s : State, s.acq = .converting →
    (s.adcDone = false → exec .acqstepConverting s = .next s)
    ∧ (s.adcDone = true → ∃ r, exec .refresh s = .next r
        ∧ exec .acqstepConverting s = .next { r with acq := .idle }
        ∧ r.raw = s.adcResult
        ∧ r = { s with raw := r.raw, sample := r.sample, cell := r.cell, seg := r.seg, bus := r.bus })

/-- Which arm ACQSTEP runs is decided by the register: the three words of the table act alike (30_encoding.md R74,
log 23). -/
def Obligations.ArmDecidedByRegister : Prop :=
  ∀ s : State, exec .acqstepIdle s = exec .acqstepStarted s ∧ exec .acqstepStarted s = exec .acqstepConverting s

/-- REFRESH is its six steps in order: RAW from ADCREAD, then MVCONV, EXTRACT, ROUND, COMPOSE, UPDATE, each on what the
one before left; only the returned value of the steps is not kept. -/
def Obligations.RefreshIsSixSteps : Prop :=
  decode .op [0x0D] = some (.refresh, [])
  ∧ ∀ s : State, ∃ t r code, exec .refresh s = .next t
    ∧ exec .adcread s = .next r ∧ r.result = .raw code ∧ t.envDraws = r.envDraws
    ∧ (s.adcDone = true → code = s.adcResult ∧ t.envDraws = s.envDraws)
    ∧ ∃ a b c d e, exec (.mvconv code) { s with raw := code } = .next a
        ∧ exec (.extract a.sample.toNat 4) a = .next b
        ∧ exec (.round .regs) b = .next c
        ∧ exec (.compose .regs) c = .next d
        ∧ exec (.update .regs) d = .next e
        ∧ t = { e with result := s.result, envDraws := t.envDraws }

/-- The digits REFRESH composes are those of the raw code rounded to millivolts, and with `SHOWN = N` no rounding happens:
CELL reads back to the millivolts (40_digit_pipeline.md R97, the spec's own consequence). -/
def Obligations.RefreshDigitsReadBack : Prop :=
  ∀ s t : State, exec .refresh s = .next t → 4 ≤ s.fmt.shown →
    cellsValue t.cell.toList = t.sample.toNat ∧ t.sample.toNat ≤ 4995

/-- The peripheral's three calls: a start clears completion and puts a conversion in flight (R163, the spec's decision
D30); a poll returns ADC_DONE without side effect (R164); a read of a completed conversion returns ADC_RESULT without side
effect, and before completion returns some code (R165; U4, log 22). -/
def Obligations.PeripheralCalls : Prop :=
  (∀ s : State, exec .adcstart s = .next { s with adcDone := false, adcBusy := true })
  ∧ (∀ s : State, exec .adcpoll s = .next { s with result := .bit s.adcDone })
  ∧ (∀ s : State, ∃ t code, exec .adcread s = .next t ∧ t = { s with result := .raw code, envDraws := t.envDraws }
      ∧ (s.adcDone = true → code = s.adcResult ∧ t.envDraws = s.envDraws))

/-- The transitions of ACQ in a pass are exactly three, in a ring, each on its own condition. That the start clears
ADC_DONE is the spec's decision D30 (log 9). -/
def Obligations.PassTransitionRing : Prop :=
  ∀ s : State, ∃ t, exec .pass s = .next t
    ∧ (s.acq = .idle → t.acq
        = if 10 ≤ (s.icnt + (if s.tickflag then 1 else 0)).toNat then .started else .idle)
    ∧ (s.acq = .started → t.acq = .converting ∧ t.adcBusy = true ∧ t.adcDone = false)
    ∧ (s.acq = .converting → t.acq = if s.adcDone then .idle else .converting)

/-- A pass puts something on the bus only on the Converting to Idle edge of a completed conversion, whose code it has then
read; a refresh never shows an unfinished conversion. -/
def Obligations.BusActivityNeedsCompletion : Prop :=
  ∀ s t : State, exec .pass s = .next t → t.bus ≠ s.bus →
    s.acq = .converting ∧ s.adcDone = true ∧ t.acq = .idle ∧ t.raw = s.adcResult

/-- A peripheral that never completes: over any number of ticks and passes, in any order, the machine stays in Converting
and nothing but the flag, the counters and the indicator moves. -/
def Obligations.StuckConversionStalls : Prop :=
  ∀ (is : List Instr) (s : State), (∀ i ∈ is, i = .pass ∨ i = .tickisr) → s.acq = .converting → s.adcDone = false →
    ∃ t, runInstrs is s = .next t
      ∧ t = { s with tickflag := t.tickflag, icnt := t.icnt, ecnt := t.ecnt, duration := t.duration, ind := t.ind }

/-! ### Ticks, indicator, pass (44_scheduler_indicator.md) -/

/-- TICKISR sets TICKFLAG and touches nothing else. -/
def Obligations.TickIsrSetsFlagOnly : Prop :=
  decode .op [0x0F] = some (.tickisr, []) ∧ ∀ s : State, exec .tickisr s = .next { s with tickflag := true }

/-- TICKPOLL clears the flag and, if it was set, advances both counters by one, modulo 256 (R181; the width is the spec's
decision D12). -/
def Obligations.TickPollCounts : Prop :=
  ∀ s : State, ∃ t, exec .tickpoll s = .next t
    ∧ t = { s with tickflag := false, icnt := t.icnt, ecnt := t.ecnt }
    ∧ t.icnt.toNat = (s.icnt.toNat + (if s.tickflag then 1 else 0)) % 256
    ∧ t.ecnt.toNat = (s.ecnt.toNat + (if s.tickflag then 1 else 0)) % 256

/-- A tick taken while the flag is set is lost: however many ticks come before one TICKPOLL, one is counted (R183). -/
def Obligations.LostTick : Prop :=
  ∀ (k : Nat) (s : State),
    thenExec (runInstrs (List.replicate (k + 1) Instr.tickisr) s) .tickpoll
      = thenExec (exec .tickisr s) .tickpoll

/-- A tick commutes with every operation but TICKPOLL, PASS and RESET, which are the ones that touch the flag (R184, the
spec's decision D18). -/
def Obligations.TickCommutes : Prop :=
  ∀ (i : Instr) (s : State), i ≠ .tickpoll → i ≠ .pass → i ≠ .reset →
    thenExec (exec .tickisr s) i = thenExec (exec i s) .tickisr

/-- INDSTART zeroes the elapsed counter and sets the duration to 5; the output does not change yet. -/
def Obligations.FlashStarts : Prop :=
  decode .op [0x11] = some (.indstart, []) ∧ ∀ s : State, exec .indstart s = .next { s with ecnt := 0, duration := 5 }

/-- INDSTEP: nothing while no duration is active (the spec's decision D15); asserted while elapsed is at most the duration;
else deasserted and the duration cleared (R186). -/
def Obligations.IndicatorStep : Prop :=
  ∀ s : State,
    (s.duration = 0 → exec .indstep s = .next s)
    ∧ (s.duration ≠ 0 → s.ecnt.toNat ≤ s.duration.toNat → exec .indstep s = .next { s with ind := true })
    ∧ (s.duration ≠ 0 → s.duration.toNat < s.ecnt.toNat →
        exec .indstep s = .next { s with ind := false, duration := 0 })

/-- A flash lasts until the sixth counted tick (R187, the spec's conflict C2): after INDSTART and one INDSTEP, with `k`
further counted ticks the indicator is lit exactly while `k` is at most 5. -/
def Obligations.FlashLasts : Prop :=
  ∀ (k : Nat) (s : State), s.tickflag = false → ∃ t, runInstrs ([Instr.indstart, Instr.indstep] ++ tickFlash k) s = .next t
    ∧ t.ind = decide (k ≤ 5) ∧ t.duration = (if k ≤ 5 then 5 else 0)

/-- PASS is TICKPOLL, ACQSTEP, INDSTEP (R188; the order is the spec's decision D14). -/
def Obligations.PassIsThreeSteps : Prop :=
  ∀ s : State, exec .pass s = runInstrs [.tickpoll, .acqstepIdle, .indstep] s

/-- From Idle with no flash active, the pass that consumes the tick that brings ICNT to 10 enters Started and zeroes ICNT,
and no pass before it leaves Idle (70_reset_and_hazards.md R232, the spec's own consequence). -/
def Obligations.TenTicksToStarted : Prop :=
  ∀ (k : Nat) (s : State), s.acq = .idle → s.tickflag = false → s.duration = 0 → s.icnt.toNat + k ≤ 10 → 0 < k →
    ∃ t, runInstrs (tickPass k) s = .next t
      ∧ t = { s with acq := t.acq, icnt := t.icnt, ecnt := t.ecnt }
      ∧ (s.icnt.toNat + k < 10 → t.acq = .idle ∧ t.icnt.toNat = s.icnt.toNat + k)
      ∧ (s.icnt.toNat + k = 10 → t.acq = .started ∧ t.icnt = 0)

/-! ### Reset (70_reset_and_hazards.md) -/

/-- RESET gives every register the value of 10_state.md R30, whose values are the spec's decision D16, sends nothing and
calls no peripheral; the script, the pending answers, the returned value and FMT_INIT stay, and no display address beyond
the cells changes: these last are the model's choice (log 11, log 16). What R30 leaves unspecified is not constrained. -/
def Obligations.ResetOperation : Prop :=
  ∀ s : State, ∃ t, exec .reset s = .next t
    ∧ t.acq = .idle ∧ t.icnt = 0 ∧ t.ecnt = 0 ∧ t.duration = 0 ∧ t.tickflag = false ∧ t.ind = false
    ∧ t.fmt = s.fmtInit ∧ t.fmtInit = s.fmtInit ∧ t.bus.isIdle ∧ t.bus.wire = [] ∧ t.adcBusy = false
    ∧ t.script = s.script ∧ t.bus.acks = s.bus.acks ∧ t.bus.scripted = s.bus.scripted ∧ t.result = s.result
    ∧ ∀ a, 4 ≤ a → t.bus.rcv.cells.read a = s.bus.rcv.cells.read a

/-- The state right after reset, for every FMT_INIT: the values 10_state.md R30 gives (the spec's decision D16). -/
def Obligations.ResetStateValues : Prop :=
  ∀ f : Fmt, (State.resetWith f).acq = .idle ∧ (State.resetWith f).icnt = 0 ∧ (State.resetWith f).ecnt = 0
    ∧ (State.resetWith f).duration = 0 ∧ (State.resetWith f).tickflag = false ∧ (State.resetWith f).ind = false
    ∧ (State.resetWith f).fmt = f ∧ (State.resetWith f).bus.isIdle ∧ (State.resetWith f).bus.wire = []
    ∧ (State.resetWith f).adcBusy = false

/-- Only RESET writes FMT (10_state.md R18), and nothing writes FMT_INIT. -/
def Obligations.FormatWrittenByResetOnly : Prop :=
  ∀ (i : Instr) (s t : State), exec i s = .next t → t.fmtInit = s.fmtInit ∧ (i ≠ .reset → t.fmt = s.fmt)

/-! ### Wire bytes at the receiver (20_memory.md R41, R44: general knowledge in the spec; PRESUMED, logs 15, 29) -/

/-- The four command bytes at the receiver: write mode, address 0, display on at a brightness, display off. -/
def Obligations.CommandBytesAtReceiver : Prop :=
  ∀ (s : State) (bright : Brightness),
    exec .dataCmd s = .next { s with bus := { s.bus with rcv := { s.bus.rcv with autoInc := true } } }
    ∧ exec .addrCmd s = .next { s with bus := { s.bus with rcv := { s.bus.rcv with addr := 0 } } }
    ∧ exec (.dispOn bright) s
        = .next { s with bus := { s.bus with rcv := { s.bus.rcv with on := true, bright := bright } } }
    ∧ exec .dispOff s = .next { s with bus := { s.bus with rcv := { s.bus.rcv with on := false } } }

/-- A segment data byte is stored at the current cell address, which then increases by one; where it has no cell to go to
the instruction still completes, the receiver's contents open (U5, log 16). Nothing outside the receiver changes, nor, by
the model's choice (log 16), any address beyond the cells. -/
def Obligations.SegmentByteStored : Prop :=
  ∀ (dp : Bool) (pattern : BitVec 7) (s : State), ∃ t, exec (.segb dp pattern) s = .next t
    ∧ t = { s with bus := { s.bus with rcv := t.bus.rcv } }
    ∧ (s.bus.rcv.autoInc = true → s.bus.rcv.addr < 4 →
        t.bus.rcv = { s.bus.rcv with cells := t.bus.rcv.cells, addr := s.bus.rcv.addr + 1 }
        ∧ t.bus.rcv.cells.read s.bus.rcv.addr = some (BitVec.ofNat 8 (128 * dp.toNat + pattern.toNat))
        ∧ ∀ a, a ≠ s.bus.rcv.addr → t.bus.rcv.cells.read a = s.bus.rcv.cells.read a)
    ∧ ∀ a, 4 ≤ a → t.bus.rcv.cells.read a = s.bus.rcv.cells.read a

/-! ### Whole machine -/

/-- Every instruction completes in every state, but for the explicit operands R205 refuses. -/
def Obligations.EveryInstructionCompletes : Prop :=
  ∀ (i : Instr) (s : State), ¬refusedOperands i → Completes i s

/-- No instruction changes what a display address beyond the four cells reads as. For an UPDATE every byte of which is
acknowledged this is 20_memory.md R49, which names only the addresses the block writes, in the receiver-side view (log 15).
For bytes and answers of any other kind it is the model's choice (log 16; for RESET log 11): R49 itself mentions command
bytes of other cells, and what the receiver does with such bytes is open (U5). -/
def Obligations.OtherAddressesUntouched : Prop :=
  ∀ (i : Instr) (s t : State), exec i s = .next t →
    ∀ a, 4 ≤ a → t.bus.rcv.cells.read a = s.bus.rcv.cells.read a

/-- CLK_OUT, DIO_OUT and WIRE are written by the driver's operations and those that run UPDATE, and by RESET, only
(10_state.md R23, R29); the trace only grows, except at RESET. -/
def Obligations.LinesWrittenByDriverOnly : Prop :=
  ∀ (i : Instr) (s t : State), exec i s = .next t → i ≠ .reset →
    s.bus.wire <+: t.bus.wire
    ∧ (drivesBus i = false → t.bus.wire = s.bus.wire ∧ t.bus.clkOut = s.bus.clkOut ∧ t.bus.dioOut = s.bus.dioOut)

/-- The invariant holds right after reset, for every FMT_INIT. ADC_DONE, the store, the reader and the position in the frame
are there by the model's choice (logs 8, 20, 21). -/
def Obligations.ResetMeetsInvariant : Prop := ∀ f : Fmt, Inv (State.resetWith f)

/-- Every step keeps the invariant: the cell store canonical and within its addresses, lines and reader as the trace left
them, FMT as set at startup, the peripheral's bits exclusive, a conversion behind Converting, the flash's fixed length.
That the store has no other address and that the receiver follows the reading of the trace are the model's (logs 11, 15, 16);
that the peripheral's bits exclude each other rests on the spec's decision D30 (log 9). -/
def Obligations.StepKeepsInvariant : Prop := ∀ s t : State, Inv s → step s = .next t → Inv t
end

