-- ==== Sys2Proof/Laws/Arrays.lean ====
section
/-! SUPPORT. Lengths of the arrays of the digit pipeline and of the composer, and registers read back as lists. -/

namespace Sys2Proof.Machine

open Sys2Proof

@[simp] theorem extractDigits_length (value width : Nat) : (extractDigits value width).length = width := by
  induction width generalizing value with
  | zero => rfl
  | succ w ih => simp [extractDigits, ih]

@[simp] theorem roundPass_length (ds : List Digit) : (roundPass ds).2.length = ds.length := by
  induction ds with
  | nil => rfl
  | cons d ds ih =>
    cases ds with
    | nil => rfl
    | cons e es => simpa [roundPass] using ih

@[simp] theorem roundDigits_length (ds : List Digit) (shown : Nat) : (roundDigits ds shown).length = ds.length := by
  unfold roundDigits; split <;> simp

@[simp] theorem composeFrom_length (fmt : Fmt) (width i : Nat) (lead : Bool) (ds : List Digit) :
    (composeFrom fmt width i lead ds).length = ds.length := by
  induction ds generalizing i lead with
  | nil => rfl
  | cons d ds ih => simp [composeFrom, ih]

@[simp] theorem composeCells_length (ds : List Digit) (fmt : Fmt) : (composeCells ds fmt).length = ds.length := by
  simp [composeCells]

theorem carryOfLast_toNat (d : Digit) : (carryOfLast d).toNat = if 5 < d.val then 1 else 0 := by
  by_cases h : 5 < d.val <;> simp [carryOfLast, Config.roundThreshold, h]

theorem carryOfSum_toNat (d : Digit) (carryIn : Bool) :
    (carryOfSum d carryIn).toNat = if 9 < d.val + carryIn.toNat then 1 else 0 := by
  by_cases h : 9 < d.val + carryIn.toNat <;> simp [carryOfSum, h]

@[simp] theorem addCarry_val (d : Digit) (carryIn : Bool) :
    (addCarry d carryIn).val = (d.val + carryIn.toNat) % 10 := rfl

theorem cellsOf_toList {ds : List Digit} (h : ds.length = Config.width) : (cellsOf ds).toList = ds := by
  match ds, h with
  | [a, b, c, d], _ => rfl

theorem segsOf_toList {bs : List Byte} (h : bs.length = Config.width) : (segsOf bs).toList = bs := by
  match bs, h with
  | [a, b, c, d], _ => rfl

@[simp] theorem refreshCells_length (raw : RawCode) (fmt : Fmt) : (refreshCells raw fmt).length = Config.width := by
  simp [refreshCells]

end Sys2Proof.Machine
end

