-- ==== Sys2Proof/Laws/Memory.lean ====
section
/-! SUPPORT. The laws of the display's cell store: read after write, and that a write keeps the canonical form and the
address space. -/

namespace Sys2Proof.Machine

open Sys2Proof

theorem read_write_same (m : Memory) (a : Nat) (v : Byte) : (m.write a v).read a = some v := by
  induction m with
  | nil => simp [Memory.write, Memory.read]
  | cons c rest ih =>
    obtain ⟨k, u⟩ := c
    simp only [Memory.write]
    split
    · simp [Memory.read]
    · split
      · next h => simp [Memory.read, h]
      · next h => simp [Memory.read, h, ih]

theorem read_write_other (m : Memory) {a x : Nat} (v : Byte) (h : x ≠ a) :
    (m.write a v).read x = m.read x := by
  induction m with
  | nil => simp [Memory.write, Memory.read, h]
  | cons c rest ih =>
    obtain ⟨k, u⟩ := c
    simp only [Memory.write]
    split
    · simp [Memory.read, h]
    · split
      · next hk => subst hk; simp [Memory.read, h]
      · simp [Memory.read, ih]

/-- Every address after a write was listed before or is the one written. -/
theorem write_keys {m : Memory} {a x : Nat} {v : Byte} (h : x ∈ (m.write a v).map Prod.fst) :
    x = a ∨ x ∈ m.map Prod.fst := by
  induction m with
  | nil => simp [Memory.write] at h; exact .inl h
  | cons c rest ih =>
    obtain ⟨k, u⟩ := c
    simp only [Memory.write] at h
    split at h
    · simpa using h
    · split at h
      · simp only [List.map_cons, List.mem_cons] at h ⊢; exact .inr h
      · simp only [List.map_cons, List.mem_cons] at h ⊢
        rcases h with h | h
        · exact .inr (.inl h)
        · rcases ih h with h | h
          · exact .inl h
          · exact .inr (.inr h)

theorem write_wf {m : Memory} (a : Nat) (v : Byte) (h : m.wf) : (m.write a v).wf := by
  induction m with
  | nil => simp [Memory.write, Memory.wf]
  | cons c rest ih =>
    obtain ⟨k, u⟩ := c
    simp only [Memory.wf, List.map_cons, List.pairwise_cons] at h ih ⊢
    simp only [Memory.write]
    split
    · next hk =>
      simp only [List.map_cons, List.pairwise_cons, List.mem_cons, forall_eq_or_imp]
      exact ⟨⟨hk, fun x hx => Nat.lt_trans hk (h.1 x hx)⟩, h⟩
    · split
      · simpa using h
      · next h1 h2 =>
        simp only [List.map_cons, List.pairwise_cons]
        refine ⟨fun x hx => ?_, ih h.2⟩
        rcases write_keys hx with hx | hx
        · omega
        · exact h.1 x hx

theorem write_inSpace {m : Memory} {a : Nat} (v : Byte) (ha : a < Config.width) (h : m.inSpace) :
    (m.write a v).inSpace := by
  intro c hc
  rcases write_keys (List.mem_map_of_mem (f := Prod.fst) hc) with hx | hx
  · omega
  · obtain ⟨d, hd, he⟩ := List.mem_map.mp hx
    have := h d hd
    omega

/-! ### Free contents -/

theorem scramble_wf {r : Receiver} (h : r.cells.wf) : r.scramble.cells.wf :=
  write_wf _ _ (write_wf _ _ (write_wf _ _ (write_wf _ _ h)))

theorem scramble_inSpace {r : Receiver} (h : r.cells.inSpace) : r.scramble.cells.inSpace :=
  write_inSpace _ (by decide) (write_inSpace _ (by decide)
    (write_inSpace _ (by decide) (write_inSpace _ (by decide) h)))

theorem scramble_read {r : Receiver} {a : Nat} (h : Config.width ≤ a) :
    r.scramble.cells.read a = r.cells.read a := by
  simp only [Config.width] at h
  simp only [Receiver.scramble]
  rw [read_write_other _ _ (by omega), read_write_other _ _ (by omega), read_write_other _ _ (by omega),
    read_write_other _ _ (by omega)]

@[simp] theorem scramble_reader (r : Receiver) : r.scramble.reader = r.reader := rfl
@[simp] theorem scramble_frame (r : Receiver) : r.scramble.frame = r.frame := rfl
@[simp] theorem lose_reader (r : Receiver) : r.lose.reader = r.reader := rfl
@[simp] theorem lose_frame (r : Receiver) : r.lose.frame = .unknown := rfl
@[simp] theorem lose_cells (r : Receiver) : r.lose.cells = r.scramble.cells := rfl

end Sys2Proof.Machine
end

