-- ==== Sys2Proof/Laws/State.lean ====
section
/-! SUPPORT. One lemma per field per named update of State and of Bus, each true by unfolding the update once, so that
no later proof unfolds it. -/

namespace Sys2Proof.Machine

open Sys2Proof

/-! ### Fields after the tick interrupt -/

@[simp] theorem takeTick_raw (s : State) : (takeTick s).raw = s.raw := rfl
@[simp] theorem takeTick_sample (s : State) : (takeTick s).sample = s.sample := rfl
@[simp] theorem takeTick_cell (s : State) : (takeTick s).cell = s.cell := rfl
@[simp] theorem takeTick_seg (s : State) : (takeTick s).seg = s.seg := rfl
@[simp] theorem takeTick_acq (s : State) : (takeTick s).acq = s.acq := rfl
@[simp] theorem takeTick_tickflag (s : State) : (takeTick s).tickflag = true := rfl
@[simp] theorem takeTick_fmt (s : State) : (takeTick s).fmt = s.fmt := rfl
@[simp] theorem takeTick_fmtInit (s : State) : (takeTick s).fmtInit = s.fmtInit := rfl
@[simp] theorem takeTick_icnt (s : State) : (takeTick s).icnt = s.icnt := rfl
@[simp] theorem takeTick_ecnt (s : State) : (takeTick s).ecnt = s.ecnt := rfl
@[simp] theorem takeTick_duration (s : State) : (takeTick s).duration = s.duration := rfl
@[simp] theorem takeTick_ind (s : State) : (takeTick s).ind = s.ind := rfl
@[simp] theorem takeTick_adcDone (s : State) : (takeTick s).adcDone = s.adcDone := rfl
@[simp] theorem takeTick_adcResult (s : State) : (takeTick s).adcResult = s.adcResult := rfl
@[simp] theorem takeTick_adcBusy (s : State) : (takeTick s).adcBusy = s.adcBusy := rfl
@[simp] theorem takeTick_bus (s : State) : (takeTick s).bus = s.bus := rfl
@[simp] theorem takeTick_script (s : State) : (takeTick s).script = s.script := rfl
@[simp] theorem takeTick_envDraws (s : State) : (takeTick s).envDraws = s.envDraws := rfl
@[simp] theorem takeTick_result (s : State) : (takeTick s).result = s.result := rfl

/-! ### Fields after a conversion start -/

@[simp] theorem adcStart_raw (s : State) : (adcStart s).raw = s.raw := rfl
@[simp] theorem adcStart_sample (s : State) : (adcStart s).sample = s.sample := rfl
@[simp] theorem adcStart_cell (s : State) : (adcStart s).cell = s.cell := rfl
@[simp] theorem adcStart_seg (s : State) : (adcStart s).seg = s.seg := rfl
@[simp] theorem adcStart_acq (s : State) : (adcStart s).acq = s.acq := rfl
@[simp] theorem adcStart_tickflag (s : State) : (adcStart s).tickflag = s.tickflag := rfl
@[simp] theorem adcStart_fmt (s : State) : (adcStart s).fmt = s.fmt := rfl
@[simp] theorem adcStart_fmtInit (s : State) : (adcStart s).fmtInit = s.fmtInit := rfl
@[simp] theorem adcStart_icnt (s : State) : (adcStart s).icnt = s.icnt := rfl
@[simp] theorem adcStart_ecnt (s : State) : (adcStart s).ecnt = s.ecnt := rfl
@[simp] theorem adcStart_duration (s : State) : (adcStart s).duration = s.duration := rfl
@[simp] theorem adcStart_ind (s : State) : (adcStart s).ind = s.ind := rfl
@[simp] theorem adcStart_adcDone (s : State) : (adcStart s).adcDone = false := rfl
@[simp] theorem adcStart_adcResult (s : State) : (adcStart s).adcResult = s.adcResult := rfl
@[simp] theorem adcStart_adcBusy (s : State) : (adcStart s).adcBusy = true := rfl
@[simp] theorem adcStart_bus (s : State) : (adcStart s).bus = s.bus := rfl
@[simp] theorem adcStart_script (s : State) : (adcStart s).script = s.script := rfl
@[simp] theorem adcStart_envDraws (s : State) : (adcStart s).envDraws = s.envDraws := rfl
@[simp] theorem adcStart_result (s : State) : (adcStart s).result = s.result := rfl

/-! ### Fields after a conversion's completion -/

@[simp] theorem adcComplete_raw (code : RawCode) (s : State) : (adcComplete code s).raw = s.raw := rfl
@[simp] theorem adcComplete_sample (code : RawCode) (s : State) : (adcComplete code s).sample = s.sample := rfl
@[simp] theorem adcComplete_cell (code : RawCode) (s : State) : (adcComplete code s).cell = s.cell := rfl
@[simp] theorem adcComplete_seg (code : RawCode) (s : State) : (adcComplete code s).seg = s.seg := rfl
@[simp] theorem adcComplete_acq (code : RawCode) (s : State) : (adcComplete code s).acq = s.acq := rfl
@[simp] theorem adcComplete_tickflag (code : RawCode) (s : State) : (adcComplete code s).tickflag = s.tickflag := rfl
@[simp] theorem adcComplete_fmt (code : RawCode) (s : State) : (adcComplete code s).fmt = s.fmt := rfl
@[simp] theorem adcComplete_fmtInit (code : RawCode) (s : State) : (adcComplete code s).fmtInit = s.fmtInit := rfl
@[simp] theorem adcComplete_icnt (code : RawCode) (s : State) : (adcComplete code s).icnt = s.icnt := rfl
@[simp] theorem adcComplete_ecnt (code : RawCode) (s : State) : (adcComplete code s).ecnt = s.ecnt := rfl
@[simp] theorem adcComplete_duration (code : RawCode) (s : State) : (adcComplete code s).duration = s.duration := rfl
@[simp] theorem adcComplete_ind (code : RawCode) (s : State) : (adcComplete code s).ind = s.ind := rfl
@[simp] theorem adcComplete_adcDone (code : RawCode) (s : State) : (adcComplete code s).adcDone = true := rfl
@[simp] theorem adcComplete_adcResult (code : RawCode) (s : State) : (adcComplete code s).adcResult = code := rfl
@[simp] theorem adcComplete_adcBusy (code : RawCode) (s : State) : (adcComplete code s).adcBusy = false := rfl
@[simp] theorem adcComplete_bus (code : RawCode) (s : State) : (adcComplete code s).bus = s.bus := rfl
@[simp] theorem adcComplete_script (code : RawCode) (s : State) : (adcComplete code s).script = s.script := rfl
@[simp] theorem adcComplete_envDraws (code : RawCode) (s : State) : (adcComplete code s).envDraws = s.envDraws := rfl
@[simp] theorem adcComplete_result (code : RawCode) (s : State) : (adcComplete code s).result = s.result := rfl

/-! ### Fields after a flash's start -/

@[simp] theorem indStart_raw (s : State) : (indStart s).raw = s.raw := rfl
@[simp] theorem indStart_sample (s : State) : (indStart s).sample = s.sample := rfl
@[simp] theorem indStart_cell (s : State) : (indStart s).cell = s.cell := rfl
@[simp] theorem indStart_seg (s : State) : (indStart s).seg = s.seg := rfl
@[simp] theorem indStart_acq (s : State) : (indStart s).acq = s.acq := rfl
@[simp] theorem indStart_tickflag (s : State) : (indStart s).tickflag = s.tickflag := rfl
@[simp] theorem indStart_fmt (s : State) : (indStart s).fmt = s.fmt := rfl
@[simp] theorem indStart_fmtInit (s : State) : (indStart s).fmtInit = s.fmtInit := rfl
@[simp] theorem indStart_icnt (s : State) : (indStart s).icnt = s.icnt := rfl
@[simp] theorem indStart_ecnt (s : State) : (indStart s).ecnt = 0 := rfl
@[simp] theorem indStart_duration (s : State) : (indStart s).duration = Config.flashTicks := rfl
@[simp] theorem indStart_ind (s : State) : (indStart s).ind = s.ind := rfl
@[simp] theorem indStart_adcDone (s : State) : (indStart s).adcDone = s.adcDone := rfl
@[simp] theorem indStart_adcResult (s : State) : (indStart s).adcResult = s.adcResult := rfl
@[simp] theorem indStart_adcBusy (s : State) : (indStart s).adcBusy = s.adcBusy := rfl
@[simp] theorem indStart_bus (s : State) : (indStart s).bus = s.bus := rfl
@[simp] theorem indStart_script (s : State) : (indStart s).script = s.script := rfl
@[simp] theorem indStart_envDraws (s : State) : (indStart s).envDraws = s.envDraws := rfl
@[simp] theorem indStart_result (s : State) : (indStart s).result = s.result := rfl

/-! ### Fields after an array result -/

@[simp] theorem putCells_raw (ds : List Digit) (s : State) : (putCells ds s).raw = s.raw := rfl
@[simp] theorem putCells_sample (ds : List Digit) (s : State) : (putCells ds s).sample = s.sample := rfl
@[simp] theorem putCells_cell (ds : List Digit) (s : State) :
    (putCells ds s).cell = if ds.length = Config.width then cellsOf ds else s.cell := rfl
@[simp] theorem putCells_seg (ds : List Digit) (s : State) : (putCells ds s).seg = s.seg := rfl
@[simp] theorem putCells_acq (ds : List Digit) (s : State) : (putCells ds s).acq = s.acq := rfl
@[simp] theorem putCells_tickflag (ds : List Digit) (s : State) : (putCells ds s).tickflag = s.tickflag := rfl
@[simp] theorem putCells_fmt (ds : List Digit) (s : State) : (putCells ds s).fmt = s.fmt := rfl
@[simp] theorem putCells_fmtInit (ds : List Digit) (s : State) : (putCells ds s).fmtInit = s.fmtInit := rfl
@[simp] theorem putCells_icnt (ds : List Digit) (s : State) : (putCells ds s).icnt = s.icnt := rfl
@[simp] theorem putCells_ecnt (ds : List Digit) (s : State) : (putCells ds s).ecnt = s.ecnt := rfl
@[simp] theorem putCells_duration (ds : List Digit) (s : State) : (putCells ds s).duration = s.duration := rfl
@[simp] theorem putCells_ind (ds : List Digit) (s : State) : (putCells ds s).ind = s.ind := rfl
@[simp] theorem putCells_adcDone (ds : List Digit) (s : State) : (putCells ds s).adcDone = s.adcDone := rfl
@[simp] theorem putCells_adcResult (ds : List Digit) (s : State) : (putCells ds s).adcResult = s.adcResult := rfl
@[simp] theorem putCells_adcBusy (ds : List Digit) (s : State) : (putCells ds s).adcBusy = s.adcBusy := rfl
@[simp] theorem putCells_bus (ds : List Digit) (s : State) : (putCells ds s).bus = s.bus := rfl
@[simp] theorem putCells_script (ds : List Digit) (s : State) : (putCells ds s).script = s.script := rfl
@[simp] theorem putCells_envDraws (ds : List Digit) (s : State) : (putCells ds s).envDraws = s.envDraws := rfl
@[simp] theorem putCells_result (ds : List Digit) (s : State) : (putCells ds s).result = .cells ds := rfl

/-! ### Fields after a segment result -/

@[simp] theorem putSegs_raw (bs : List Byte) (s : State) : (putSegs bs s).raw = s.raw := rfl
@[simp] theorem putSegs_sample (bs : List Byte) (s : State) : (putSegs bs s).sample = s.sample := rfl
@[simp] theorem putSegs_cell (bs : List Byte) (s : State) : (putSegs bs s).cell = s.cell := rfl
@[simp] theorem putSegs_seg (bs : List Byte) (s : State) :
    (putSegs bs s).seg = if bs.length = Config.width then segsOf bs else s.seg := rfl
@[simp] theorem putSegs_acq (bs : List Byte) (s : State) : (putSegs bs s).acq = s.acq := rfl
@[simp] theorem putSegs_tickflag (bs : List Byte) (s : State) : (putSegs bs s).tickflag = s.tickflag := rfl
@[simp] theorem putSegs_fmt (bs : List Byte) (s : State) : (putSegs bs s).fmt = s.fmt := rfl
@[simp] theorem putSegs_fmtInit (bs : List Byte) (s : State) : (putSegs bs s).fmtInit = s.fmtInit := rfl
@[simp] theorem putSegs_icnt (bs : List Byte) (s : State) : (putSegs bs s).icnt = s.icnt := rfl
@[simp] theorem putSegs_ecnt (bs : List Byte) (s : State) : (putSegs bs s).ecnt = s.ecnt := rfl
@[simp] theorem putSegs_duration (bs : List Byte) (s : State) : (putSegs bs s).duration = s.duration := rfl
@[simp] theorem putSegs_ind (bs : List Byte) (s : State) : (putSegs bs s).ind = s.ind := rfl
@[simp] theorem putSegs_adcDone (bs : List Byte) (s : State) : (putSegs bs s).adcDone = s.adcDone := rfl
@[simp] theorem putSegs_adcResult (bs : List Byte) (s : State) : (putSegs bs s).adcResult = s.adcResult := rfl
@[simp] theorem putSegs_adcBusy (bs : List Byte) (s : State) : (putSegs bs s).adcBusy = s.adcBusy := rfl
@[simp] theorem putSegs_bus (bs : List Byte) (s : State) : (putSegs bs s).bus = s.bus := rfl
@[simp] theorem putSegs_script (bs : List Byte) (s : State) : (putSegs bs s).script = s.script := rfl
@[simp] theorem putSegs_envDraws (bs : List Byte) (s : State) : (putSegs bs s).envDraws = s.envDraws := rfl
@[simp] theorem putSegs_result (bs : List Byte) (s : State) : (putSegs bs s).result = .segs bs := rfl

/-! ### Fields after a step of the receiver -/

@[simp] theorem mapRcv_raw (f : Receiver → Receiver) (s : State) : (s.mapRcv f).raw = s.raw := rfl
@[simp] theorem mapRcv_sample (f : Receiver → Receiver) (s : State) : (s.mapRcv f).sample = s.sample := rfl
@[simp] theorem mapRcv_cell (f : Receiver → Receiver) (s : State) : (s.mapRcv f).cell = s.cell := rfl
@[simp] theorem mapRcv_seg (f : Receiver → Receiver) (s : State) : (s.mapRcv f).seg = s.seg := rfl
@[simp] theorem mapRcv_acq (f : Receiver → Receiver) (s : State) : (s.mapRcv f).acq = s.acq := rfl
@[simp] theorem mapRcv_tickflag (f : Receiver → Receiver) (s : State) : (s.mapRcv f).tickflag = s.tickflag := rfl
@[simp] theorem mapRcv_fmt (f : Receiver → Receiver) (s : State) : (s.mapRcv f).fmt = s.fmt := rfl
@[simp] theorem mapRcv_fmtInit (f : Receiver → Receiver) (s : State) : (s.mapRcv f).fmtInit = s.fmtInit := rfl
@[simp] theorem mapRcv_icnt (f : Receiver → Receiver) (s : State) : (s.mapRcv f).icnt = s.icnt := rfl
@[simp] theorem mapRcv_ecnt (f : Receiver → Receiver) (s : State) : (s.mapRcv f).ecnt = s.ecnt := rfl
@[simp] theorem mapRcv_duration (f : Receiver → Receiver) (s : State) : (s.mapRcv f).duration = s.duration := rfl
@[simp] theorem mapRcv_ind (f : Receiver → Receiver) (s : State) : (s.mapRcv f).ind = s.ind := rfl
@[simp] theorem mapRcv_adcDone (f : Receiver → Receiver) (s : State) : (s.mapRcv f).adcDone = s.adcDone := rfl
@[simp] theorem mapRcv_adcResult (f : Receiver → Receiver) (s : State) : (s.mapRcv f).adcResult = s.adcResult := rfl
@[simp] theorem mapRcv_adcBusy (f : Receiver → Receiver) (s : State) : (s.mapRcv f).adcBusy = s.adcBusy := rfl
@[simp] theorem mapRcv_bus (f : Receiver → Receiver) (s : State) :
    (s.mapRcv f).bus = { s.bus with rcv := f s.bus.rcv } := rfl
@[simp] theorem mapRcv_script (f : Receiver → Receiver) (s : State) : (s.mapRcv f).script = s.script := rfl
@[simp] theorem mapRcv_envDraws (f : Receiver → Receiver) (s : State) : (s.mapRcv f).envDraws = s.envDraws := rfl
@[simp] theorem mapRcv_result (f : Receiver → Receiver) (s : State) : (s.mapRcv f).result = s.result := rfl

/-! ### Fields after a script line taken -/

@[simp] theorem popLine_raw (rest : List Stimulus) (s : State) : (s.popLine rest).raw = s.raw := rfl
@[simp] theorem popLine_sample (rest : List Stimulus) (s : State) : (s.popLine rest).sample = s.sample := rfl
@[simp] theorem popLine_cell (rest : List Stimulus) (s : State) : (s.popLine rest).cell = s.cell := rfl
@[simp] theorem popLine_seg (rest : List Stimulus) (s : State) : (s.popLine rest).seg = s.seg := rfl
@[simp] theorem popLine_acq (rest : List Stimulus) (s : State) : (s.popLine rest).acq = s.acq := rfl
@[simp] theorem popLine_tickflag (rest : List Stimulus) (s : State) : (s.popLine rest).tickflag = s.tickflag := rfl
@[simp] theorem popLine_fmt (rest : List Stimulus) (s : State) : (s.popLine rest).fmt = s.fmt := rfl
@[simp] theorem popLine_fmtInit (rest : List Stimulus) (s : State) : (s.popLine rest).fmtInit = s.fmtInit := rfl
@[simp] theorem popLine_icnt (rest : List Stimulus) (s : State) : (s.popLine rest).icnt = s.icnt := rfl
@[simp] theorem popLine_ecnt (rest : List Stimulus) (s : State) : (s.popLine rest).ecnt = s.ecnt := rfl
@[simp] theorem popLine_duration (rest : List Stimulus) (s : State) : (s.popLine rest).duration = s.duration := rfl
@[simp] theorem popLine_ind (rest : List Stimulus) (s : State) : (s.popLine rest).ind = s.ind := rfl
@[simp] theorem popLine_adcDone (rest : List Stimulus) (s : State) : (s.popLine rest).adcDone = s.adcDone := rfl
@[simp] theorem popLine_adcResult (rest : List Stimulus) (s : State) : (s.popLine rest).adcResult = s.adcResult := rfl
@[simp] theorem popLine_adcBusy (rest : List Stimulus) (s : State) : (s.popLine rest).adcBusy = s.adcBusy := rfl
@[simp] theorem popLine_bus (rest : List Stimulus) (s : State) :
    (s.popLine rest).bus = { s.bus with scripted := true } := rfl
@[simp] theorem popLine_script (rest : List Stimulus) (s : State) : (s.popLine rest).script = rest := rfl
@[simp] theorem popLine_envDraws (rest : List Stimulus) (s : State) : (s.popLine rest).envDraws = s.envDraws := rfl
@[simp] theorem popLine_result (rest : List Stimulus) (s : State) : (s.popLine rest).result = s.result := rfl

/-! ### Fields after a step without a script -/

@[simp] theorem unscripted_raw (s : State) : s.unscripted.raw = s.raw := rfl
@[simp] theorem unscripted_sample (s : State) : s.unscripted.sample = s.sample := rfl
@[simp] theorem unscripted_cell (s : State) : s.unscripted.cell = s.cell := rfl
@[simp] theorem unscripted_seg (s : State) : s.unscripted.seg = s.seg := rfl
@[simp] theorem unscripted_acq (s : State) : s.unscripted.acq = s.acq := rfl
@[simp] theorem unscripted_tickflag (s : State) : s.unscripted.tickflag = s.tickflag := rfl
@[simp] theorem unscripted_fmt (s : State) : s.unscripted.fmt = s.fmt := rfl
@[simp] theorem unscripted_fmtInit (s : State) : s.unscripted.fmtInit = s.fmtInit := rfl
@[simp] theorem unscripted_icnt (s : State) : s.unscripted.icnt = s.icnt := rfl
@[simp] theorem unscripted_ecnt (s : State) : s.unscripted.ecnt = s.ecnt := rfl
@[simp] theorem unscripted_duration (s : State) : s.unscripted.duration = s.duration := rfl
@[simp] theorem unscripted_ind (s : State) : s.unscripted.ind = s.ind := rfl
@[simp] theorem unscripted_adcDone (s : State) : s.unscripted.adcDone = s.adcDone := rfl
@[simp] theorem unscripted_adcResult (s : State) : s.unscripted.adcResult = s.adcResult := rfl
@[simp] theorem unscripted_adcBusy (s : State) : s.unscripted.adcBusy = s.adcBusy := rfl
@[simp] theorem unscripted_bus (s : State) : s.unscripted.bus = { s.bus with scripted := false } := rfl
@[simp] theorem unscripted_script (s : State) : s.unscripted.script = s.script := rfl
@[simp] theorem unscripted_envDraws (s : State) : s.unscripted.envDraws = s.envDraws + 1 := rfl
@[simp] theorem unscripted_result (s : State) : s.unscripted.result = s.result := rfl

/-! ### Fields after an ACKS line -/

@[simp] theorem fixAcks_raw (levels : List Bool) (s : State) : (fixAcks levels s).raw = s.raw := rfl
@[simp] theorem fixAcks_sample (levels : List Bool) (s : State) : (fixAcks levels s).sample = s.sample := rfl
@[simp] theorem fixAcks_cell (levels : List Bool) (s : State) : (fixAcks levels s).cell = s.cell := rfl
@[simp] theorem fixAcks_seg (levels : List Bool) (s : State) : (fixAcks levels s).seg = s.seg := rfl
@[simp] theorem fixAcks_acq (levels : List Bool) (s : State) : (fixAcks levels s).acq = s.acq := rfl
@[simp] theorem fixAcks_tickflag (levels : List Bool) (s : State) : (fixAcks levels s).tickflag = s.tickflag := rfl
@[simp] theorem fixAcks_fmt (levels : List Bool) (s : State) : (fixAcks levels s).fmt = s.fmt := rfl
@[simp] theorem fixAcks_fmtInit (levels : List Bool) (s : State) : (fixAcks levels s).fmtInit = s.fmtInit := rfl
@[simp] theorem fixAcks_icnt (levels : List Bool) (s : State) : (fixAcks levels s).icnt = s.icnt := rfl
@[simp] theorem fixAcks_ecnt (levels : List Bool) (s : State) : (fixAcks levels s).ecnt = s.ecnt := rfl
@[simp] theorem fixAcks_duration (levels : List Bool) (s : State) : (fixAcks levels s).duration = s.duration := rfl
@[simp] theorem fixAcks_ind (levels : List Bool) (s : State) : (fixAcks levels s).ind = s.ind := rfl
@[simp] theorem fixAcks_adcDone (levels : List Bool) (s : State) : (fixAcks levels s).adcDone = s.adcDone := rfl
@[simp] theorem fixAcks_adcResult (levels : List Bool) (s : State) : (fixAcks levels s).adcResult = s.adcResult := rfl
@[simp] theorem fixAcks_adcBusy (levels : List Bool) (s : State) : (fixAcks levels s).adcBusy = s.adcBusy := rfl
@[simp] theorem fixAcks_bus (levels : List Bool) (s : State) :
    (fixAcks levels s).bus = { s.bus with acks := levels ++ s.bus.acks.drop levels.length } := rfl
@[simp] theorem fixAcks_script (levels : List Bool) (s : State) : (fixAcks levels s).script = s.script := rfl
@[simp] theorem fixAcks_envDraws (levels : List Bool) (s : State) : (fixAcks levels s).envDraws = s.envDraws := rfl
@[simp] theorem fixAcks_result (levels : List Bool) (s : State) : (fixAcks levels s).result = s.result := rfl

/-! ### Fields after REFRESH -/

@[simp] theorem refresh_raw (s : State) : (refresh s).raw = adcRead s := rfl
@[simp] theorem refresh_sample (s : State) : (refresh s).sample = toMillivolts (adcRead s) := rfl
@[simp] theorem refresh_cell (s : State) : (refresh s).cell = cellsOf (refreshCells (adcRead s) s.fmt) := rfl
@[simp] theorem refresh_seg (s : State) :
    (refresh s).seg = segsOf (composeCells (refreshCells (adcRead s) s.fmt) s.fmt) := rfl
@[simp] theorem refresh_acq (s : State) : (refresh s).acq = s.acq := rfl
@[simp] theorem refresh_tickflag (s : State) : (refresh s).tickflag = s.tickflag := rfl
@[simp] theorem refresh_fmt (s : State) : (refresh s).fmt = s.fmt := rfl
@[simp] theorem refresh_fmtInit (s : State) : (refresh s).fmtInit = s.fmtInit := rfl
@[simp] theorem refresh_icnt (s : State) : (refresh s).icnt = s.icnt := rfl
@[simp] theorem refresh_ecnt (s : State) : (refresh s).ecnt = s.ecnt := rfl
@[simp] theorem refresh_duration (s : State) : (refresh s).duration = s.duration := rfl
@[simp] theorem refresh_ind (s : State) : (refresh s).ind = s.ind := rfl
@[simp] theorem refresh_adcDone (s : State) : (refresh s).adcDone = s.adcDone := rfl
@[simp] theorem refresh_adcResult (s : State) : (refresh s).adcResult = s.adcResult := rfl
@[simp] theorem refresh_adcBusy (s : State) : (refresh s).adcBusy = s.adcBusy := rfl
@[simp] theorem refresh_bus (s : State) :
    (refresh s).bus = s.bus.update (composeCells (refreshCells (adcRead s) s.fmt) s.fmt) s.fmt.bright := rfl
@[simp] theorem refresh_script (s : State) : (refresh s).script = s.script := rfl
@[simp] theorem refresh_envDraws (s : State) : (refresh s).envDraws = adcReadDraws s := rfl
@[simp] theorem refresh_result (s : State) : (refresh s).result = s.result := rfl

/-! ### Fields of the bus after `emit` -/

@[simp] theorem emit_clkOut (e : Event) (b : Bus) : (b.emit e).clkOut = e.clk b.clkOut := rfl
@[simp] theorem emit_dioOut (e : Event) (b : Bus) : (b.emit e).dioOut = e.dio b.dioOut := rfl
@[simp] theorem emit_wire (e : Event) (b : Bus) : (b.emit e).wire = b.wire ++ [e] := rfl
@[simp] theorem emit_rcv (e : Event) (b : Bus) : (b.emit e).rcv = b.rcv.see b.clkOut b.dioOut e := rfl
@[simp] theorem emit_acks (e : Event) (b : Bus) : (b.emit e).acks = b.acks := rfl
@[simp] theorem emit_scripted (e : Event) (b : Bus) : (b.emit e).scripted = b.scripted := rfl
@[simp] theorem emit_ackDraws (e : Event) (b : Bus) : (b.emit e).ackDraws = b.ackDraws := rfl

/-! ### Fields of the bus after `dropAck` -/

@[simp] theorem dropAck_clkOut (b : Bus) : b.dropAck.clkOut = b.clkOut := rfl
@[simp] theorem dropAck_dioOut (b : Bus) : b.dropAck.dioOut = b.dioOut := rfl
@[simp] theorem dropAck_wire (b : Bus) : b.dropAck.wire = b.wire := rfl
@[simp] theorem dropAck_rcv (b : Bus) : b.dropAck.rcv = b.rcv := rfl
@[simp] theorem dropAck_acks (b : Bus) : b.dropAck.acks = b.acks.tail := rfl
@[simp] theorem dropAck_scripted (b : Bus) : b.dropAck.scripted = b.scripted := rfl
@[simp] theorem dropAck_ackDraws (b : Bus) : b.dropAck.ackDraws = b.ackDraws + 1 := rfl

end Sys2Proof.Machine
end

