-- ==== Sys2Proof/Laws/Bus.lean ====
section
/-! SUPPORT. What emission can do, said once: the trace grows by the events, the lines follow it, and the receiver takes
what is read. -/

namespace Sys2Proof.Machine

open Sys2Proof

/-! ### Emission of a list -/

@[simp] theorem emitAll_nil (b : Bus) : b.emitAll [] = b := rfl
@[simp] theorem emitAll_cons (b : Bus) (e : Event) (es : List Event) :
    b.emitAll (e :: es) = (b.emit e).emitAll es := rfl

theorem emitAll_append (b : Bus) (es fs : List Event) : b.emitAll (es ++ fs) = (b.emitAll es).emitAll fs :=
  List.foldl_append

@[simp] theorem emitAll_wire (b : Bus) (es : List Event) : (b.emitAll es).wire = b.wire ++ es := by
  induction es generalizing b with
  | nil => simp
  | cons e es ih => simp [ih]

@[simp] theorem emitAll_acks (b : Bus) (es : List Event) : (b.emitAll es).acks = b.acks := by
  induction es generalizing b with
  | nil => rfl
  | cons e es ih => simp [ih]

@[simp] theorem emitAll_scripted (b : Bus) (es : List Event) : (b.emitAll es).scripted = b.scripted := by
  induction es generalizing b with
  | nil => rfl
  | cons e es ih => simp [ih]

@[simp] theorem emitAll_ackDraws (b : Bus) (es : List Event) : (b.emitAll es).ackDraws = b.ackDraws := by
  induction es generalizing b with
  | nil => rfl
  | cons e es ih => simp [ih]

theorem emitAll_clkOut (b : Bus) (es : List Event) :
    (b.emitAll es).clkOut = es.foldl (fun d e => e.clk d) b.clkOut := by
  induction es generalizing b with
  | nil => rfl
  | cons e es ih => simp [ih]

theorem emitAll_dioOut (b : Bus) (es : List Event) :
    (b.emitAll es).dioOut = es.foldl (fun d e => e.dio d) b.dioOut := by
  induction es generalizing b with
  | nil => rfl
  | cons e es ih => simp [ih]

/-! ### The primitives -/

@[simp] theorem start_wire (b : Bus) : b.start.wire = b.wire ++ startEvents := emitAll_wire b _
@[simp] theorem stop_wire (b : Bus) : b.stop.wire = b.wire ++ stopEvents := emitAll_wire b _
@[simp] theorem wrbyte_wire (b : Bus) (v : Byte) :
    (b.wrbyte v).wire = b.wire ++ byteEvents v b.nextAck := emitAll_wire b.dropAck _

@[simp] theorem start_clkOut (b : Bus) : b.start.clkOut = b.clkOut := rfl
@[simp] theorem start_dioOut (b : Bus) : b.start.dioOut = .low := rfl
@[simp] theorem stop_clkOut (b : Bus) : b.stop.clkOut = .rel := rfl
@[simp] theorem stop_dioOut (b : Bus) : b.stop.dioOut = .rel := rfl

@[simp] theorem wrbyte_clkOut (b : Bus) (v : Byte) : (b.wrbyte v).clkOut = .low := by
  simp [Bus.wrbyte, emitAll_clkOut, byteEvents, ackEvents, Event.clk]

@[simp] theorem wrbyte_dioOut (b : Bus) (v : Byte) :
    (b.wrbyte v).dioOut = if b.nextAck then .low else .rel := by
  cases h : b.nextAck <;> simp [Bus.wrbyte, emitAll_dioOut, byteEvents, ackEvents, Event.dio, forcesLow, h]

/-! ### Answers of the receiver -/

/-- The answers depend on the three fields that hold them, which nothing but a sample changes. -/
theorem answers_congr {b c : Bus} (h1 : b.acks = c.acks) (h2 : b.scripted = c.scripted)
    (h3 : b.ackDraws = c.ackDraws) (n : Nat) : b.answers n = c.answers n := by
  induction n generalizing b c with
  | zero => rfl
  | succ n ih =>
    simp only [Bus.answers]
    rw [ih (b := b.dropAck) (c := c.dropAck) (by simp [h1]) (by simpa using h2) (by simp [h3])]
    simp [Bus.nextAck, h1, h2, h3]

@[simp] theorem answers_emitAll (b : Bus) (es : List Event) (n : Nat) : (b.emitAll es).answers n = b.answers n :=
  answers_congr (emitAll_acks b es) (emitAll_scripted b es) (emitAll_ackDraws b es) n

@[simp] theorem answers_length (b : Bus) (n : Nat) : (b.answers n).length = n := by
  induction n generalizing b with
  | zero => rfl
  | succ n ih => simp [Bus.answers, ih]

/-! ### The reading of the trace -/

theorem readWire_append (w es : List Event) : readWire (w ++ es) = es.foldl Reading.see (readWire w) :=
  List.foldl_append

/-- One event of the trace is one event of the reading. -/
theorem readWire_concat (w : List Event) (e : Event) : readWire (w ++ [e]) = (readWire w).see e := by
  simp [readWire_append]

/-! ### What the receiver can do at one event -/

@[simp] theorem command_reader (r : Receiver) (c : Command) : (r.command c).reader = r.reader := by
  cases c <;> rfl

@[simp] theorem command_cells (r : Receiver) (c : Command) : (r.command c).cells = r.cells := by
  cases c <;> rfl

@[simp] theorem segment_reader (r : Receiver) (v : Byte) : (r.segment v).reader = r.reader := by
  unfold Receiver.segment; split <;> rfl

@[simp] theorem segment_frame (r : Receiver) (v : Byte) : (r.segment v).frame = r.frame := by
  unfold Receiver.segment; split <;> rfl

/-- A data byte keeps the canonical form and the address space, and touches no address beyond the cells. -/
theorem segment_cells (r : Receiver) (v : Byte) :
    (r.cells.wf → (r.segment v).cells.wf) ∧ (r.cells.inSpace → (r.segment v).cells.inSpace) ∧
      ∀ a, Config.width ≤ a → (r.segment v).cells.read a = r.cells.read a := by
  unfold Receiver.segment
  split
  · next h =>
    simp only [Receiver.storable, Bool.and_eq_true, decide_eq_true_eq] at h
    exact ⟨fun w => write_wf _ _ w, fun w => write_inSpace _ h.2 w, fun a ha => read_write_other _ _ (by omega)⟩
  · exact ⟨scramble_wf, scramble_inSpace, fun a ha => scramble_read ha⟩

/-- What a step of the receiver may do to its cells: they stay, become free, or take one data byte. -/
def CellsStep (r r' : Receiver) : Prop :=
  r'.cells = r.cells ∨ r'.cells = r.scramble.cells ∨ ∃ v, r'.cells = (r.segment v).cells

theorem CellsStep_wf {r r' : Receiver} (h : CellsStep r r') (w : r.cells.wf) : r'.cells.wf := by
  rcases h with h | h | ⟨v, h⟩ <;> rw [h]
  · exact w
  · exact scramble_wf w
  · exact (segment_cells r v).1 w

theorem CellsStep_inSpace {r r' : Receiver} (h : CellsStep r r') (w : r.cells.inSpace) : r'.cells.inSpace := by
  rcases h with h | h | ⟨v, h⟩ <;> rw [h]
  · exact w
  · exact scramble_inSpace w
  · exact (segment_cells r v).2.1 w

theorem CellsStep_read {r r' : Receiver} (h : CellsStep r r') {a : Nat} (ha : Config.width ≤ a) :
    r'.cells.read a = r.cells.read a := by
  rcases h with h | h | ⟨v, h⟩ <;> rw [h]
  · exact scramble_read ha
  · exact (segment_cells r v).2.2 a ha

theorem byte_step (r : Receiver) (b : Byte) : CellsStep r (r.byte b) ∧ (r.byte b).reader = r.reader := by
  unfold Receiver.byte
  split
  · exact ⟨.inl rfl, rfl⟩
  · split
    · exact ⟨.inl (by simp), by simp⟩
    · exact ⟨.inr (.inl rfl), rfl⟩
  · split
    · exact ⟨.inr (.inr ⟨b, rfl⟩), by simp⟩
    · exact ⟨.inr (.inl rfl), rfl⟩
  · exact ⟨.inr (.inl rfl), rfl⟩
  · exact ⟨.inr (.inl rfl), rfl⟩

theorem start_step (r : Receiver) : CellsStep r r.start ∧ r.start.reader = r.reader := by
  unfold Receiver.start
  split
  · exact ⟨.inl rfl, rfl⟩
  all_goals exact ⟨.inr (.inl rfl), rfl⟩

theorem stop_step (r : Receiver) : CellsStep r r.stop ∧ r.stop.reader = r.reader := by
  unfold Receiver.stop
  split
  · exact ⟨.inr (.inl rfl), rfl⟩
  all_goals exact ⟨.inl rfl, rfl⟩

theorem nack_step (r : Receiver) : CellsStep r r.nack ∧ r.nack.reader = r.reader := by
  unfold Receiver.nack
  split
  · exact ⟨.inl rfl, rfl⟩
  all_goals exact ⟨.inr (.inl rfl), rfl⟩

theorem take_step (r : Receiver) (i : Option Item) : CellsStep r (r.take i) ∧ (r.take i).reader = r.reader := by
  unfold Receiver.take
  split
  · exact ⟨.inl rfl, rfl⟩
  · exact start_step r
  · exact byte_step r _
  · exact stop_step r

/-- The cells do not depend on the reader. -/
theorem CellsStep_of_reader {r r' : Receiver} {x : Reader} (h : CellsStep { r with reader := x } r') :
    CellsStep r r' := by
  rcases h with h | h | ⟨v, h⟩
  · exact .inl h
  · exact .inr (.inl h)
  · refine .inr (.inr ⟨v, h.trans ?_⟩)
    unfold Receiver.segment Receiver.storable
    split <;> rfl

/-- One event: the reader moves as the reading does, and the cells stay, become free, or take one byte. -/
theorem see_step (r : Receiver) (clk dio : Drive) (e : Event) :
    CellsStep r (r.see clk dio e) ∧ (r.see clk dio e).reader = (r.reader.see clk dio e).1 := by
  unfold Receiver.see
  split
  · exact nack_step r
  · exact ⟨CellsStep_of_reader (take_step _ _).1, (take_step _ _).2⟩

end Sys2Proof.Machine
end

