-- ==== Sys2Proof/Laws/Exec.lean ====
section
/-! SUPPORT. What `exec` answers for each instruction, as equations to rewrite with: no later proof unfolds the dispatch
or a meaning. -/

namespace Sys2Proof.Machine

open Sys2Proof

theorem exec_dataCmd (s : State) : exec .dataCmd s = .next (s.mapRcv (Receiver.command · .data)) := rfl
theorem exec_addrCmd (s : State) : exec .addrCmd s = .next (s.mapRcv (Receiver.command · .addr)) := rfl
theorem exec_dispOn (bright : Brightness) (s : State) :
    exec (.dispOn bright) s = .next (s.mapRcv (Receiver.command · (.on bright))) := rfl
theorem exec_dispOff (s : State) : exec .dispOff s = .next (s.mapRcv (Receiver.command · .off)) := rfl
theorem exec_segb (dp : Bool) (pattern : BitVec 7) (s : State) :
    exec (.segb dp pattern) s = .next (s.mapRcv (Receiver.segment · (encodeSegment dp pattern))) := rfl
theorem exec_reset (s : State) : exec .reset s = execReset s := rfl
theorem exec_mvconv (raw : RawCode) (s : State) :
    exec (.mvconv raw) s = .next { s with sample := toMillivolts raw, result := .millivolts (toMillivolts raw) } := rfl
theorem exec_extract (value width : Nat) (s : State) :
    exec (.extract value width) s = .next (putCells (extractDigits value width) s) := rfl
theorem exec_round_regs (s : State) :
    exec (.round .regs) s = .next (putCells (roundDigits s.cell.toList s.fmt.shown) s) := rfl
theorem exec_round_shown (n : Nat) (s : State) :
    exec (.round (.shown n)) s = .next (putCells (roundDigits s.cell.toList n) s) := rfl
theorem exec_round_explicit (cells : List Nat) (shown : Nat) (s : State) :
    exec (.round (.explicit cells shown)) s = withCells cells fun ds => .next (putCells (roundDigits ds shown) s) := rfl
theorem exec_compose_regs (s : State) :
    exec (.compose .regs) s = .next (putSegs (composeCells s.cell.toList s.fmt) s) := rfl
theorem exec_compose_explicit (cells : List Nat) (fmt : Fmt) (s : State) :
    exec (.compose (.explicit cells fmt)) s = withCells cells fun ds => .next (putSegs (composeCells ds fmt) s) := rfl
theorem exec_start (s : State) : exec .start s = .next { s with bus := s.bus.start } := rfl
theorem exec_wrbyte (b : Byte) (s : State) :
    exec (.wrbyte b) s = .next { s with bus := s.bus.wrbyte b, result := .bit true } := rfl
theorem exec_stop (s : State) : exec .stop s = .next { s with bus := s.bus.stop } := rfl
theorem exec_frame (first : Byte) (rest : List Byte) (s : State) :
    exec (.frame first rest) s = .next { s with bus := s.bus.frame (first :: rest) } := rfl
theorem exec_update_regs (s : State) :
    exec (.update .regs) s = .next { s with bus := s.bus.update s.seg.toList s.fmt.bright } := rfl
theorem exec_update_explicit (seg : Vector Byte Config.width) (bright : Brightness) (s : State) :
    exec (.update (.explicit seg bright)) s = .next { s with bus := s.bus.update seg.toList bright } := rfl
theorem exec_adcstart (s : State) : exec .adcstart s = .next (adcStart s) := rfl
theorem exec_adcpoll (s : State) : exec .adcpoll s = .next { s with result := .bit (adcPoll s) } := rfl
theorem exec_adcread (s : State) :
    exec .adcread s = .next { s with result := .raw (adcRead s), envDraws := adcReadDraws s } := rfl
theorem exec_refresh (s : State) : exec .refresh s = .next (refresh s) := rfl
theorem exec_acqstepIdle (s : State) : exec .acqstepIdle s = .next (acqStep s) := rfl
theorem exec_acqstepStarted (s : State) : exec .acqstepStarted s = .next (acqStep s) := rfl
theorem exec_acqstepConverting (s : State) : exec .acqstepConverting s = .next (acqStep s) := rfl
theorem exec_tickisr (s : State) : exec .tickisr s = .next (takeTick s) := rfl
theorem exec_tickpoll (s : State) : exec .tickpoll s = .next (tickPoll s) := rfl
theorem exec_indstart (s : State) : exec .indstart s = .next (indStart s) := rfl
theorem exec_indstep (s : State) : exec .indstep s = .next (indStep s) := rfl
theorem exec_pass (s : State) : exec .pass s = .next (passStep s) := rfl

/-! ### The arms of the state machine, by the register -/

theorem acqStep_idle {s : State} (h : s.acq = .idle) : acqStep s = acqIdleArm s := by simp [acqStep, h]
theorem acqStep_started {s : State} (h : s.acq = .started) : acqStep s = acqStartedArm s := by simp [acqStep, h]
theorem acqStep_converting {s : State} (h : s.acq = .converting) : acqStep s = acqConvertingArm s := by
  simp [acqStep, h]

/-! ### Explicit cells -/

@[simp] theorem digitsOf_vals (ds : List Digit) : digitsOf (ds.map Fin.val) = some ds := by
  induction ds with
  | nil => rfl
  | cons d ds ih => simp [digitsOf, ih]

/-- A cell above 9 is refused wherever it stands. -/
theorem digitsOf_above {cells : List Nat} (h : ∃ c ∈ cells, 9 < c) : digitsOf cells = none := by
  induction cells with
  | nil => simp at h
  | cons c cs ih =>
    obtain ⟨x, hx, h9⟩ := h
    rcases List.mem_cons.mp hx with rfl | hx
    · simp only [digitsOf]
      split
      · simp; omega
      · rfl
    · simp [digitsOf, ih ⟨x, hx, h9⟩]

/-- Cells none of which is above 9 are digits. -/
theorem digitsOf_digits {cells : List Nat} (h : ∀ c ∈ cells, c ≤ 9) : ∃ ds, digitsOf cells = some ds := by
  induction cells with
  | nil => exact ⟨[], rfl⟩
  | cons c cs ih =>
    obtain ⟨ds, e⟩ := ih fun x hx => h x (List.mem_cons_of_mem _ hx)
    have hc : c < 10 := Nat.lt_succ_of_le (h c List.mem_cons_self)
    exact ⟨⟨c, hc⟩ :: ds, by simp [digitsOf, e, hc]⟩

end Sys2Proof.Machine
end

