-- ==== Sys2Proof/Laws/Serial.lean ====
section
/-! SUPPORT. Byte writes, frames and their answers: what they put on the trace, what a reader of the trace sees of a bit
and of an acknowledgment, and what the receiver takes of them. -/

namespace Sys2Proof.Machine

open Sys2Proof

/-! ### Byte lists -/

@[simp] theorem wrbytes_nil (b : Bus) : b.wrbytes [] = b := rfl
@[simp] theorem wrbytes_cons (b : Bus) (v : Byte) (vs : List Byte) : b.wrbytes (v :: vs) = (b.wrbyte v).wrbytes vs :=
  List.foldl_cons ..

theorem update_frames (b : Bus) (seg : List Byte) (bright : Brightness) :
    b.update seg bright = ((b.frame [encodeCommand .data]).frame (encodeCommand .addr :: seg)).frame
      [encodeCommand (.on bright)] := by
  simp only [Bus.update, updateFrames, List.foldl_cons, List.foldl_nil]

/-- A byte write leaves the clock low, hence so does a non-empty list of them. -/
theorem wrbytes_clkOut {vs : List Byte} (h : vs ≠ []) (b : Bus) : (b.wrbytes vs).clkOut = .low := by
  induction vs generalizing b with
  | nil => exact absurd rfl h
  | cons v vs ih =>
    rw [wrbytes_cons]
    cases vs with
    | nil => rw [wrbytes_nil, wrbyte_clkOut]
    | cons w ws => exact ih (by simp) _

theorem stop_isIdle (b : Bus) : b.stop.isIdle := ⟨stop_clkOut b, stop_dioOut b⟩
theorem frame_isIdle (b : Bus) (vs : List Byte) : (b.frame vs).isIdle := stop_isIdle _
theorem update_isIdle (b : Bus) (seg : List Byte) (bright : Brightness) : (b.update seg bright).isIdle := by
  rw [update_frames]; exact frame_isIdle _ _

/-! ### Answers -/

@[simp] theorem answers_start (b : Bus) (n : Nat) : b.start.answers n = b.answers n := answers_emitAll b _ n
@[simp] theorem answers_stop (b : Bus) (n : Nat) : b.stop.answers n = b.answers n := answers_emitAll b _ n
@[simp] theorem answers_wrbyte (b : Bus) (v : Byte) (n : Nat) : (b.wrbyte v).answers n = b.dropAck.answers n :=
  answers_emitAll b.dropAck _ n

/-- The first answers of many are the many's first. -/
theorem answers_take {m n : Nat} (b : Bus) (h : m ≤ n) : (b.answers n).take m = b.answers m := by
  induction m generalizing b n with
  | zero => simp [Bus.answers]
  | succ m ih =>
    obtain ⟨k, rfl⟩ : ∃ k, n = k + 1 := ⟨n - 1, by omega⟩
    simp [Bus.answers, ih b.dropAck (Nat.le_of_succ_le_succ h)]

/-- Bytes written use up as many answers. -/
theorem answers_wrbytes (b : Bus) (vs : List Byte) (n : Nat) :
    (b.wrbytes vs).answers n = (b.answers (vs.length + n)).drop vs.length := by
  induction vs generalizing b with
  | nil => simp
  | cons v vs ih =>
    rw [wrbytes_cons, ih, List.length_cons, show vs.length + 1 + n = vs.length + n + 1 by omega]
    simp [Bus.answers]

theorem answers_frame (b : Bus) (vs : List Byte) (n : Nat) :
    (b.frame vs).answers n = (b.answers (vs.length + n)).drop vs.length := by
  simp [Bus.frame, answers_wrbytes]

/-! ### The trace -/

theorem wrbytes_wire (b : Bus) (vs : List Byte) :
    (b.wrbytes vs).wire = b.wire ++ (vs.zip (b.answers vs.length)).flatMap fun p => byteEvents p.1 p.2 := by
  induction vs generalizing b with
  | nil => simp
  | cons v vs ih => rw [wrbytes_cons, ih, answers_wrbyte]; simp [Bus.answers]

theorem frame_wire (b : Bus) (vs : List Byte) :
    (b.frame vs).wire = b.wire ++ startEvents
      ++ ((vs.zip (b.answers vs.length)).flatMap fun p => byteEvents p.1 p.2) ++ stopEvents := by
  simp [Bus.frame, wrbytes_wire]

/-! ### A byte and its eight bits -/

theorem natOfBits_bitsOf (v : Byte) : BitVec.ofNat 8 (natOfBits (bitsOf v)) = v := by
  revert v; decide

@[simp] theorem bitsOf_length (v : Byte) : (bitsOf v).length = 8 := by simp [bitsOf]

/-! ### The reading of a bit time, from within a frame -/

/-- With the clock low, or the data line low, a bit time is one more bit and no edge. -/
theorem read_bit (x : Bool) {r : Reading} {bits : List Bool} (hr : r.reader = { inFrame := true, bits := bits })
    (hl : bits.length < 8) :
    (bitEvents x).foldl Reading.see r
      = { clk := .rel, dio := if x then .rel else .low, reader := { inFrame := true, bits := bits ++ [x] }, items := r.items } := by
  obtain ⟨c, d, rd, its⟩ := r
  obtain rfl := hr
  cases x <;> cases c <;> cases d <;> simp [bitEvents, Reading.see, Reader.see, Event.clk, Event.dio, hl]

/-- The data phase of a byte. -/
theorem read_bits (xs : List Bool) {r : Reading} {bits : List Bool} (hr : r.reader = { inFrame := true, bits := bits })
    (hl : bits.length + xs.length ≤ 8) (hx : xs ≠ []) :
    ∃ d, (xs.flatMap bitEvents).foldl Reading.see r
      = { clk := .rel, dio := d, reader := { inFrame := true, bits := bits ++ xs }, items := r.items } := by
  induction xs generalizing r bits with
  | nil => exact absurd rfl hx
  | cons x xs ih =>
    simp only [List.length_cons] at hl
    rw [List.flatMap_cons, List.foldl_append, read_bit x hr (by omega)]
    cases xs with
    | nil => exact ⟨_, rfl⟩
    | cons y ys =>
      obtain ⟨d, e⟩ := ih (r := ⟨.rel, if x then .rel else .low, ⟨true, bits ++ [x]⟩, r.items⟩) rfl (by simp at hl ⊢; omega) (by simp)
      exact ⟨d, by rw [e]; simp⟩

/-- The acknowledgment bit time completes the byte; a byte not acknowledged adds a start-shaped fall. -/
theorem read_ack (a : Bool) {r : Reading} {bits : List Bool} (hr : r.reader = { inFrame := true, bits := bits })
    (hl : bits.length = 8) (hc : r.clk = .rel) :
    (ackEvents a).foldl Reading.see r
      = { clk := .low, dio := if a then .low else .rel, reader := { inFrame := true, bits := [] },
          items := r.items ++ (Item.byte (BitVec.ofNat 8 (natOfBits bits)) :: if a then [Item.start] else []) } := by
  obtain ⟨c, d, rd, its⟩ := r
  obtain rfl := hr
  obtain rfl := hc
  cases a <;> cases d <;>
    simp [ackEvents, forcesLow, Reading.see, Reader.see, Event.clk, Event.dio, hl]

/-- A byte write, read from within a frame (42_serial_driver.md R140). -/
theorem read_byteEvents (v : Byte) (a : Bool) {r : Reading} (hr : r.reader = { inFrame := true, bits := [] }) :
    (byteEvents v a).foldl Reading.see r
      = { clk := .low, dio := if a then .low else .rel, reader := { inFrame := true, bits := [] },
          items := r.items ++ (Item.byte v :: if a then [Item.start] else []) } := by
  obtain ⟨d, e⟩ := read_bits (bitsOf v) hr (by simp) (by simp [bitsOf])
  rw [byteEvents, List.foldl_append, dataEvents, e, read_ack a rfl (by simp) rfl]
  simp [natOfBits_bitsOf]

/-! ### The receiver of a bit time and of an acknowledged byte -/

theorem rcv_bit (x : Bool) {b : Bus} {bits : List Bool} (hr : b.rcv.reader = { inFrame := true, bits := bits })
    (hl : bits.length < 8) :
    (b.emitAll (bitEvents x)).rcv = { b.rcv with reader := { inFrame := true, bits := bits ++ [x] } } := by
  obtain ⟨c, d, w, ⟨rd, fr, ai, ad, on, br, ce, dr⟩, ak, sc, de⟩ := b
  obtain rfl := hr
  cases x <;> cases c <;> cases d <;>
    simp [bitEvents, Bus.emit, Receiver.see, Reader.see, Receiver.take, Event.clk, Event.dio, hl]

theorem bit_clkOut (b : Bus) (x : Bool) : (b.emitAll (bitEvents x)).clkOut = .rel := rfl

theorem rcv_bits (xs : List Bool) {b : Bus} {bits : List Bool} (hr : b.rcv.reader = { inFrame := true, bits := bits })
    (hl : bits.length + xs.length ≤ 8) (hx : xs ≠ []) :
    (b.emitAll (xs.flatMap bitEvents)).rcv = { b.rcv with reader := { inFrame := true, bits := bits ++ xs } }
      ∧ (b.emitAll (xs.flatMap bitEvents)).clkOut = .rel := by
  induction xs generalizing b bits with
  | nil => exact absurd rfl hx
  | cons x xs ih =>
    simp only [List.length_cons] at hl
    have h1 := rcv_bit x hr (by omega)
    rw [List.flatMap_cons, emitAll_append]
    cases xs with
    | nil => exact ⟨h1, bit_clkOut b x⟩
    | cons y ys =>
      obtain ⟨e, c⟩ := ih (b := b.emitAll (bitEvents x)) (bits := bits ++ [x]) (by rw [h1]) (by simp at hl ⊢; omega)
        (by simp)
      exact ⟨by rw [e, h1]; simp, c⟩

theorem rcv_ack {b : Bus} {bits : List Bool} (hr : b.rcv.reader = { inFrame := true, bits := bits })
    (hl : bits.length = 8) (hc : b.clkOut = .rel) :
    (b.emitAll (ackEvents false)).rcv
      = ({ b.rcv with reader := { inFrame := true, bits := [] } } : Receiver).byte (BitVec.ofNat 8 (natOfBits bits)) := by
  obtain ⟨c, d, w, ⟨rd, fr, ai, ad, on, br, ce, dr⟩, ak, sc, de⟩ := b
  obtain rfl := hr
  obtain rfl := hc
  have e := (byte_step (⟨⟨true, []⟩, fr, ai, ad, on, br, ce, dr⟩ : Receiver) (BitVec.ofNat 8 (natOfBits bits))).2
  cases d <;>
    simp [ackEvents, forcesLow, Bus.emit, Receiver.see, Reader.see, Receiver.take, Event.clk, Event.dio, hl]

/-- An acknowledged byte of a frame reaches the receiver as that byte. -/
theorem rcv_byteEvents (v : Byte) {b : Bus} (hr : b.rcv.reader = { inFrame := true, bits := [] }) :
    (b.emitAll (byteEvents v false)).rcv = b.rcv.byte v := by
  obtain ⟨e, c⟩ := rcv_bits (bitsOf v) hr (by simp) (by simp [bitsOf])
  rw [byteEvents, emitAll_append, dataEvents, rcv_ack (by rw [e]) (by simp) c, e, List.nil_append, natOfBits_bitsOf, ← hr]

/-- A start from an idle bus, outside a frame. -/
theorem rcv_start {b : Bus} (hi : b.isIdle) (hf : b.rcv.frame = .idle) :
    b.start.rcv = { b.rcv with reader := { inFrame := true, bits := [] }, frame := .command } := by
  obtain ⟨c, d, w, ⟨rd, fr, ai, ad, on, br, ce, dr⟩, ak, sc, de⟩ := b
  obtain ⟨rfl, rfl⟩ := hi
  obtain rfl := hf
  simp [Bus.start, startEvents, Bus.emit, Receiver.see, Reader.see, Receiver.take, Receiver.start, Event.clk, Event.dio]

/-- A stop after a byte write, in a frame the receiver has followed. -/
theorem rcv_stop {b : Bus} (hc : b.clkOut = .low) (hr : b.rcv.reader = { inFrame := true, bits := [] })
    (hf : b.rcv.frame = .data ∨ b.rcv.frame = .closed) :
    b.stop.rcv = { b.rcv with reader := Reader.idle, frame := .idle } := by
  obtain ⟨c, d, w, ⟨rd, fr, ai, ad, on, br, ce, dr⟩, ak, sc, de⟩ := b
  obtain rfl := hc
  obtain rfl := hr
  rcases hf with hf | hf <;> obtain rfl := hf <;> cases d <;>
    simp [Bus.stop, stopEvents, Bus.emit, Receiver.see, Reader.see, Receiver.take, Receiver.stop, Event.clk, Event.dio,
      Reader.idle]

end Sys2Proof.Machine
end

