-- ==== Sys2Proof/Laws/Growth.lean ====
section
/-! SUPPORT. What any instruction can do to the bus, said once: emit events and draw answers, reset it, or take one wire
byte at the receiver. -/

namespace Sys2Proof.Machine

open Sys2Proof

/-- `c` is reached from `b` by emitting events and drawing answers. -/
inductive Bus.Grows (b : Bus) : Bus → Prop
  | refl : Bus.Grows b b
  | emit {c : Bus} (e : Event) (h : Bus.Grows b c) : Bus.Grows b (c.emit e)
  | dropAck {c : Bus} (h : Bus.Grows b c) : Bus.Grows b c.dropAck

theorem grows_trans {a b c : Bus} (h : a.Grows b) (k : b.Grows c) : a.Grows c := by
  induction k with
  | refl => exact h
  | emit e _ ih => exact .emit e ih
  | dropAck _ ih => exact .dropAck ih

theorem grows_emitAll (b : Bus) (es : List Event) : b.Grows (b.emitAll es) := by
  induction es generalizing b with
  | nil => exact .refl
  | cons e es ih => exact grows_trans (.emit e .refl) (ih _)

theorem grows_start (b : Bus) : b.Grows b.start := grows_emitAll b _
theorem grows_stop (b : Bus) : b.Grows b.stop := grows_emitAll b _
theorem grows_wrbyte (b : Bus) (v : Byte) : b.Grows (b.wrbyte v) :=
  grows_trans (.dropAck .refl) (grows_emitAll b.dropAck _)

theorem grows_wrbytes (b : Bus) (vs : List Byte) : b.Grows (b.wrbytes vs) := by
  induction vs generalizing b with
  | nil => exact .refl
  | cons v vs ih => rw [wrbytes_cons]; exact grows_trans (grows_wrbyte b v) (ih _)

theorem grows_frame (b : Bus) (vs : List Byte) : b.Grows (b.frame vs) :=
  grows_trans (grows_start b) (grows_trans (grows_wrbytes _ vs) (grows_stop _))

theorem grows_update (b : Bus) (seg : List Byte) (bright : Brightness) : b.Grows (b.update seg bright) := by
  rw [update_frames]
  exact grows_trans (grows_frame b _) (grows_trans (grows_frame _ _) (grows_frame _ _))

/-! ### What growth keeps -/

theorem grows_read {b c : Bus} (g : b.Grows c) {a : Nat} (ha : Config.width ≤ a) :
    c.rcv.cells.read a = b.rcv.cells.read a := by
  induction g with
  | refl => rfl
  | emit e _ ih => rw [← ih]; exact CellsStep_read (see_step _ _ _ e).1 ha
  | dropAck _ ih => exact ih

theorem grows_wire {b c : Bus} (g : b.Grows c) : b.wire <+: c.wire := by
  induction g with
  | refl => exact List.prefix_rfl
  | emit e _ ih => exact ih.trans (List.prefix_append _ _)
  | dropAck _ ih => exact ih

theorem grows_wf {b c : Bus} (g : b.Grows c) (w : b.rcv.cells.wf) : c.rcv.cells.wf := by
  induction g with
  | refl => exact w
  | emit e _ ih => exact CellsStep_wf (see_step _ _ _ e).1 ih
  | dropAck _ ih => exact ih

/-! ### Operations that leave the bus alone, and the state machine -/

@[simp] theorem tickPoll_bus (s : State) : (tickPoll s).bus = s.bus := by unfold tickPoll; split <;> rfl
@[simp] theorem indStep_bus (s : State) : (indStep s).bus = s.bus := by
  unfold indStep; split <;> [split; skip] <;> rfl

theorem acqStep_bus (s : State) : s.bus.Grows (acqStep s).bus := by
  unfold acqStep
  split
  · unfold acqIdleArm; split <;> exact .refl
  · exact .refl
  · unfold acqConvertingArm
    split
    · simp only [refresh_bus]; exact grows_update _ _ _
    · exact .refl

theorem passStep_bus (s : State) : s.bus.Grows (passStep s).bus := by
  have h := acqStep_bus (tickPoll s)
  rw [tickPoll_bus] at h
  rw [passStep, indStep_bus]
  exact h

/-- An operation on explicit cells answers a next state only through its run. -/
theorem withCells_next {cells : List Nat} {run : List Digit → Outcome} {t : State}
    (h : withCells cells run = .next t) : ∃ ds, digitsOf cells = some ds ∧ run ds = .next t := by
  unfold withCells at h
  split at h
  · cases h
  · cases h
  · next e => exact ⟨_, e, h⟩

end Sys2Proof.Machine
end

