-- ==== Sys2Proof/Laws/PerInstr.lean ====
section
/-! SUPPORT. Facts about every instruction as syntax, one lemma per constructor: the first byte of its encoding matches
its row of spec/opcode_table.json. -/

namespace Sys2Proof.Laws.TableRow

open Sys2Proof

/-- The first encoded byte has the row's fixed bits. -/
def Statement (i : Instr) : Prop :=
  ∃ b rest, encode i = b :: rest ∧ b &&& i.tableRow.2 = i.tableRow.1

theorem dataCmd : Statement .dataCmd := ⟨_, _, rfl, by decide⟩
theorem addrCmd : Statement .addrCmd := ⟨_, _, rfl, by decide⟩
theorem dispOn (bright : Brightness) : Statement (.dispOn bright) := ⟨_, _, rfl, by revert bright; decide⟩
theorem dispOff : Statement .dispOff := ⟨_, _, rfl, by decide⟩
theorem segb (dp : Bool) (pattern : BitVec 7) : Statement (.segb dp pattern) := ⟨_, _, rfl, BitVec.and_zero⟩
theorem reset : Statement .reset := ⟨_, _, rfl, by decide⟩
theorem mvconv (raw : RawCode) : Statement (.mvconv raw) := ⟨_, _, rfl, by simp [Instr.tableRow]⟩
theorem extract (value width : Nat) : Statement (.extract value width) := ⟨_, _, rfl, by simp [Instr.tableRow]⟩
theorem round (form : RoundForm) : Statement (.round form) := ⟨_, _, rfl, by simp [Instr.tableRow]⟩
theorem compose (form : ComposeForm) : Statement (.compose form) := ⟨_, _, rfl, by simp [Instr.tableRow]⟩
theorem start : Statement .start := ⟨_, _, rfl, by decide⟩
theorem wrbyte (b : Byte) : Statement (.wrbyte b) := ⟨_, _, rfl, by simp [Instr.tableRow]⟩
theorem stop : Statement .stop := ⟨_, _, rfl, by decide⟩
theorem frame (first : Byte) (rest : List Byte) : Statement (.frame first rest) := ⟨_, _, rfl, by simp [Instr.tableRow]⟩
theorem update (form : UpdateForm) : Statement (.update form) := ⟨_, _, rfl, by simp [Instr.tableRow]⟩
theorem adcstart : Statement .adcstart := ⟨_, _, rfl, by decide⟩
theorem adcpoll : Statement .adcpoll := ⟨_, _, rfl, by decide⟩
theorem adcread : Statement .adcread := ⟨_, _, rfl, by decide⟩
theorem refresh : Statement .refresh := ⟨_, _, rfl, by decide⟩
theorem acqstepIdle : Statement .acqstepIdle := ⟨_, _, rfl, by decide⟩
theorem acqstepStarted : Statement .acqstepStarted := ⟨_, _, rfl, by decide⟩
theorem acqstepConverting : Statement .acqstepConverting := ⟨_, _, rfl, by decide⟩
theorem tickisr : Statement .tickisr := ⟨_, _, rfl, by decide⟩
theorem tickpoll : Statement .tickpoll := ⟨_, _, rfl, by decide⟩
theorem indstart : Statement .indstart := ⟨_, _, rfl, by decide⟩
theorem indstep : Statement .indstep := ⟨_, _, rfl, by decide⟩
theorem pass : Statement .pass := ⟨_, _, rfl, by decide⟩

end Sys2Proof.Laws.TableRow
end

