-- ==== Sys2Proof/Laws/Words.lean ====
section
/-! SUPPORT. The bounds of the block's words as numerals, for linear arithmetic, which does not read a named width. -/

namespace Sys2Proof

theorem RawCode.toNat_lt (raw : RawCode) : raw.toNat < 1024 := raw.isLt

theorem Millivolts.toNat_lt (v : Millivolts) : v.toNat < 65536 := v.isLt

theorem Count.toNat_lt (c : Count) : c.toNat < 256 := c.isLt

theorem Brightness.toNat_lt (bright : Brightness) : bright.toNat < 8 := bright.isLt

theorem RawCode.toNat_ofNat (n : Nat) : (BitVec.ofNat Config.adcBits n : RawCode).toNat = n % 1024 := rfl

theorem Millivolts.toNat_ofNat (n : Nat) : (BitVec.ofNat Config.valueBits n : Millivolts).toNat = n % 65536 := rfl

theorem Count.toNat_ofNat (n : Nat) : (BitVec.ofNat Config.cntBits n : Count).toNat = n % 256 := rfl

theorem Brightness.toNat_ofNat (n : Nat) : (BitVec.ofNat Config.brightBits n : Brightness).toNat = n % 8 := rfl

theorem Count.toNat_add_one (c : Count) : (c + 1).toNat = (c.toNat + 1) % 256 := BitVec.toNat_add c 1

end Sys2Proof
end

