-- ==== Sys2Proof/Tests/Slice0.lean ====
section
/-! SUPPORT. The model's own tests. Words are written out from the tables of 30_encoding.md; expected values are the test
vectors of 95_test_vectors.md (T-..., P...) and the examples of the rules, named in each test. Last, for every statement
that has hypotheses, a witness that meets them. -/

namespace Sys2Proof.Tests

open Sys2Proof Sys2Proof.Machine Sys2Proof.Claims

/-! ### Helpers -/

/-- The next state of an outcome, if it is one. -/
def nextOf (o : Outcome) : Option State :=
  match o with
  | .next s => some s
  | .fault _ => none
  | .refused _ => none

/-- One field of the state an instruction leads to. -/
def after {α : Type} (i : Instr) (s : State) (f : State → α) : Option α := (nextOf (exec i s)).map f

/-- The refusal of an outcome, if it is one. -/
def refusalOf (o : Outcome) : Option Refusal :=
  match o with
  | .next _ => none
  | .fault _ => none
  | .refused r => some r

/-- Right after reset, with samples a script does not cover answered 0 (R76). -/
def base : State := { State.reset with bus := { Bus.reset with scripted := true } }

/-- `base` with pending answers. -/
def withAcks (levels : List Bool) : State := { base with bus := { base.bus with acks := levels } }

/-- `base` after a list of operations, or `base` where one stops. -/
def runFrom (is : List Instr) (s : State) : State := (nextOf (runInstrs is s)).getD s

/-- `base` with the given cells. -/
def cells4 (a b c d : Digit) : State := { base with cell := #v[a, b, c, d] }

/-- `base` with one script line. -/
def scripted (line : Stimulus) : State := { base with script := [line] }

/-! ### WellFormed refuses an ill-formed term for each of its checks -/

theorem test_wf_extract_value : (Instr.extract (2 ^ 32) 4).wf = false := by decide
theorem test_wf_extract_width : (Instr.extract 0 256).wf = false := by decide
theorem test_wf_round_shown : (Instr.round (.shown 256)).wf = false := by decide
theorem test_wf_round_cell : (Instr.round (.explicit [256] 0)).wf = false := by decide
theorem test_wf_round_explicit_shown : (Instr.round (.explicit [0] 256)).wf = false := by decide
theorem test_wf_round_length : (Instr.round (.explicit (List.replicate 256 0) 0)).wf = false := by decide +kernel
theorem test_wf_compose_cell : (Instr.compose (.explicit [256] Config.fmtSuggested)).wf = false := by decide
theorem test_wf_compose_length :
    (Instr.compose (.explicit (List.replicate 256 0) Config.fmtSuggested)).wf = false := by decide +kernel
theorem test_wf_compose_dp :
    (Instr.compose (.explicit [0] { Config.fmtSuggested with dp := some 4 })).wf = false := by decide
theorem test_wf_compose_shown :
    (Instr.compose (.explicit [0] { Config.fmtSuggested with shown := 8 })).wf = false := by decide
theorem test_wf_frame_length : (Instr.frame 0 (List.replicate 256 0)).wf = false := by decide +kernel
theorem test_fmt_legal : Config.fmtSuggested.legal = true := by decide
theorem test_fmt_illegal_dp : ({ Config.fmtSuggested with dp := some 4 } : Fmt).legal = false := by decide
theorem test_fmt_illegal_shown : ({ Config.fmtSuggested with shown := 5 } : Fmt).legal = false := by decide

/-! ### Decoding: words written out from 30_encoding.md R61 to R65, R74 -/

theorem test_decode_dataCmd : decode .cmd [0b01000000] = some (.dataCmd, []) := by decide
theorem test_decode_addrCmd : decode .cmd [0b11000000] = some (.addrCmd, []) := by decide
theorem test_decode_dispOn : decode .cmd [0b10001101] = some (.dispOn 5, []) := by decide
theorem test_decode_dispOff : decode .cmd [0b10000000] = some (.dispOff, []) := by decide
theorem test_decode_command_undefined : decode .cmd [0xC1] = none ∧ decode .cmd [0x44] = none := by decide
theorem test_decode_segb : decode .segb [0b11011011] = some (.segb true 0b1011011, []) := by decide
theorem test_decode_reset : decode .op [0b0000000] = some (.reset, []) := by decide
theorem test_decode_mvconv : decode .op [0b0000001, 0xFF, 0x03] = some (.mvconv 1023, []) := by decide
theorem test_decode_extract : decode .op [0b0000010, 0xFF, 0xFF, 0, 0, 4] = some (.extract 65535 4, []) := by decide
theorem test_decode_round : decode .op [0b0000011, 1, 3] = some (.round (.shown 3), []) := by decide
theorem test_decode_compose : decode .op [0b0000100, 0] = some (.compose .regs, []) := by decide
theorem test_decode_start : decode .op [0b0000101] = some (.start, []) := by decide
theorem test_decode_wrbyte : decode .op [0b0000110, 0x06] = some (.wrbyte 0x06, []) := by decide
theorem test_decode_stop : decode .op [0b0000111] = some (.stop, []) := by decide
theorem test_decode_frame : decode .op [0b0001000, 0, 0x8A] = some (.frame 0x8A [], []) := by decide
theorem test_decode_update : decode .op [0b0001001, 0] = some (.update .regs, []) := by decide
theorem test_decode_adcstart : decode .op [0b0001010] = some (.adcstart, []) := by decide
theorem test_decode_adcpoll : decode .op [0b0001011] = some (.adcpoll, []) := by decide
theorem test_decode_adcread : decode .op [0b0001100] = some (.adcread, []) := by decide
theorem test_decode_refresh : decode .op [0b0001101] = some (.refresh, []) := by decide
theorem test_decode_acqstep_idle : decode .op [0b0001110] = some (.acqstepIdle, []) := by decide
theorem test_decode_acqstep_started : decode .op [0b0101110] = some (.acqstepStarted, []) := by decide
theorem test_decode_acqstep_converting : decode .op [0b1001110] = some (.acqstepConverting, []) := by decide
theorem test_decode_acqstep_reserved : decode .op [0b1101110] = none := by decide
theorem test_decode_tickisr : decode .op [0b0001111] = some (.tickisr, []) := by decide
theorem test_decode_tickpoll : decode .op [0b0010000] = some (.tickpoll, []) := by decide
theorem test_decode_indstart : decode .op [0b0010001] = some (.indstart, []) := by decide
theorem test_decode_indstep : decode .op [0b0010010] = some (.indstep, []) := by decide
theorem test_decode_pass : decode .op [0b0010011] = some (.pass, []) := by decide
theorem test_decode_opsel_reserved : decode .op [0b0010100] = none ∧ decode .op [0b0011111] = none := by decide

/-- The format word of R18: BRIGHT 7, BLANK 1, DP 2, SHOWN 3 is 0b011_1_10_1_111. -/
theorem test_decode_fmt : decode .op [0b0000100, 1, 1, 5, 0b11101111, 0b01]
    = some (.compose (.explicit [5] { bright := 7, dp := some 2, blank := true, shown := 3 }), []) := by decide

/-- Table words through the opcode table's numbering, operand bits zero. -/
theorem test_table_words : decodeTableWord 8 0x40 = some .dataCmd ∧ decodeTableWord 8 0xC0 = some .addrCmd
    ∧ decodeTableWord 8 0x8B = some (.dispOn 3) ∧ decodeTableWord 8 0x80 = some .dispOff
    ∧ decodeTableWord 8 0xDB = some (.segb true 0x5B) ∧ decodeTableWord 8 0x00 = some .reset
    ∧ decodeTableWord 8 0x08 = some (.frame 0 []) ∧ decodeTableWord 8 0x4E = some .acqstepConverting
    ∧ decodeTableWord 8 0x13 = some .pass ∧ decodeTableWord 8 0x77 = some (.segb false 0x77) := by decide +kernel

/-! ### Digit pipeline -/

/-- T-MV4: the tie 312.5 goes upward. -/
theorem test_mvconv_tie : after (.mvconv 64) base State.sample = some 313 := by decide
/-- T-MV13. -/
theorem test_mvconv_max : after (.mvconv 1023) base State.sample = some 4995 := by decide
/-- T-EX12, width 4. -/
theorem test_extract_truncates : after (.extract 65535 4) base State.cell = some #v[5, 5, 3, 5] := by decide
/-- T-EX12, width 6: only returned (log 13). -/
theorem test_extract_width6 :
    after (.extract 65535 6) base State.result = some (.cells [0, 6, 5, 5, 3, 5]) := by decide
/-- T-RD1. -/
theorem test_round_carry : after (.round (.shown 3)) (cells4 1 2 9 6) State.cell = some #v[1, 3, 0, 0] := by decide
/-- T-RD14. -/
theorem test_round_width2 : after (.round (.explicit [9, 8] 1)) base State.result = some (.cells [0, 0]) := by decide
/-- R205. -/
theorem test_round_refuses : refusalOf (exec (.round (.explicit [10] 0)) base) = some .cellAboveNine
    ∧ refusalOf (exec (.round (.explicit [] 0)) base) = some .widthZero := by decide

/-! ### Composer -/

/-- T-CP5: a blanked decimal-point cell carries the point alone. -/
theorem test_compose_point_alone :
    after (.compose (.explicit [0, 0, 1, 0] { bright := 0, dp := some 1, blank := true, shown := 3 })) base State.seg
      = some #v[0x00, 0x80, 0x06, 0x00] := by decide
/-- T-CP11, on the registers. -/
theorem test_compose_regs : after (.compose .regs) (cells4 2 5 0 0) State.seg = some #v[0xDB, 0x6D, 0x3F, 0x3F] := by
  decide

/-! ### Serial driver -/

/-- T-ST1. -/
theorem test_start : after .start base (fun t => (t.bus.wire, t.bus.clkOut, t.bus.dioOut))
    = some ([.d0, .w], .rel, .low) := by decide
/-- T-WB1: the trace of `WRBYTE 0x06`, acknowledged, has 57 events, 28 of them waits, and begins with bits 0, 1. -/
theorem test_wrbyte_acked : after (.wrbyte 0x06) base
    (fun t => (t.bus.wire.length, waits t.bus.wire, t.bus.wire.take 12, t.bus.wire.drop 48))
    = some (57, 28, [.c0, .w, .d0, .w, .c1, .w, .c0, .w, .d1, .w, .c1, .w],
        [.c0, .w, .d1, .w, .c1, .w, .samp false, .c0, .w]) := by decide +kernel
/-- T-WB2: not acknowledged. -/
theorem test_wrbyte_nacked : after (.wrbyte 0x06) (withAcks [true])
    (fun t => (t.bus.wire.drop 48, t.bus.clkOut, t.bus.dioOut, t.result))
    = some ([.c0, .w, .d1, .w, .c1, .w, .samp true, .d0, .w, .c0, .w], .low, .low, .bit true) := by decide
/-- T-SP1. -/
theorem test_stop : after .stop base (fun t => (t.bus.wire, t.bus.clkOut, t.bus.dioOut))
    = some ([.d0, .w, .c1, .w, .d1, .w], .rel, .rel) := by decide
/-- P2: one byte not acknowledged, its events and its reading. -/
theorem test_frame_nacked : after (.frame 0x8A []) (withAcks [true])
    (fun t => (t.bus.wire.length, waits t.bus.wire, (readWire t.bus.wire).items))
    = some (67, 33, [.start, .byte 0x8A, .start, .stop]) := by decide +kernel
/-- T-UP1: the display's cells, brightness and power. -/
theorem test_update : after (.update (.explicit #v[0xDB, 0x6D, 0x3F, 0x3F] 7)) base
    (fun t => (t.bus.rcv.cells, t.bus.rcv.on, t.bus.rcv.bright))
    = some ([(0, 0xDB), (1, 0x6D), (2, 0x3F), (3, 0x3F)], true, 7) := by decide +kernel
/-- T-UP2: second and seventh byte not acknowledged. -/
theorem test_update_nacked :
    after (.update (.explicit #v[0x00, 0xED, 0x3F, 0x00] 2)) (withAcks [false, true, false, false, false, false, true])
    (fun t => (readWire t.bus.wire).items)
    = some [.start, .byte 0x40, .stop, .start, .byte 0xC0, .start, .byte 0x00, .byte 0xED, .byte 0x3F, .byte 0x00,
        .stop, .start, .byte 0x8A, .start, .stop] := by decide +kernel

/-! ### Wire bytes at the receiver (20_memory.md R41, R44) -/

theorem test_dataCmd : after .dataCmd base (fun t => t.bus.rcv.autoInc) = some true := by decide
theorem test_addrCmd : after .addrCmd { base with bus := { base.bus with rcv := { base.bus.rcv with addr := 3 } } }
    (fun t => t.bus.rcv.addr) = some 0 := by decide
theorem test_dispOn : after (.dispOn 3) base (fun t => (t.bus.rcv.on, t.bus.rcv.bright)) = some (true, 3) := by decide
theorem test_dispOff : after .dispOff (runFrom [.dispOn 3] base) (fun t => t.bus.rcv.on) = some false := by decide
theorem test_segb : after (.segb true 0x5B) (runFrom [.dataCmd, .addrCmd] base)
    (fun t => (t.bus.rcv.cells, t.bus.rcv.addr)) = some ([(0, 0xDB)], 1) := by decide

/-! ### Acquisition -/

/-- T-AQ5's peripheral part. -/
theorem test_adcstart : after .adcstart base (fun t => (t.adcBusy, t.adcDone)) = some (true, false) := by decide
theorem test_adcpoll : after .adcpoll { base with adcDone := true } State.result = some (.bit true) := by decide
theorem test_adcread : after .adcread { base with adcDone := true, adcResult := 512 } State.result
    = some (.raw 512) := by decide
/-- T-PL5 with SHOWN = 3, BLANK = 1. -/
theorem test_refresh : after .refresh
    { base with adcDone := true, adcResult := 102, fmt := { bright := 7, dp := some 0, blank := true, shown := 3 } }
    (fun t => (t.raw, t.sample, t.cell, t.seg))
    = some (102, 498, #v[0, 5, 0, 0], #v[0x80, 0x6D, 0x3F, 0x00]) := by decide +kernel
/-- T-AQ1, T-AQ2. -/
theorem test_acqstep_idle : after .acqstepIdle { base with icnt := 9 } State.acq = some .idle
    ∧ after .acqstepIdle { base with icnt := 10 } (fun t => (t.acq, t.icnt)) = some (.started, 0) := by decide
/-- T-AQ5. -/
theorem test_acqstep_started : after .acqstepStarted { base with acq := .started, ecnt := 17 }
    (fun t => (t.acq, t.ecnt, t.duration, t.adcBusy, t.adcDone, t.ind))
    = some (.converting, 0, 5, true, false, false) := by decide
/-- T-AQ7. -/
theorem test_acqstep_converting :
    after .acqstepConverting { base with acq := .converting, adcDone := true, adcResult := 512 }
    (fun t => (t.acq, t.sample, t.seg, t.bus.wire.head?))
    = some (.idle, 2500, #v[0xDB, 0x6D, 0x3F, 0x3F], some .d0) := by decide +kernel
/-- T-AQ6. -/
theorem test_acqstep_polls : after .acqstepConverting { base with acq := .converting } (fun t => (t.acq, t.bus.wire))
    = some (.converting, []) := by decide

/-! ### Ticks, indicator, pass -/

/-- T-TK1. -/
theorem test_tickisr : after .tickisr base State.tickflag = some true := by decide
/-- T-TK5: wrap. -/
theorem test_tickpoll_wraps : after .tickpoll { base with tickflag := true, icnt := 255, ecnt := 255 }
    (fun t => (t.tickflag, t.icnt, t.ecnt)) = some (false, 0, 0) := by decide
/-- T-IN1. -/
theorem test_indstart : after .indstart { base with ecnt := 17 } (fun t => (t.ecnt, t.duration)) = some (0, 5) := by
  decide
/-- T-IN4, T-IN5. -/
theorem test_indstep :
    after .indstep { base with duration := 5, ecnt := 5, ind := true } (fun t => (t.ind, t.duration)) = some (true, 5)
    ∧ after .indstep { base with duration := 5, ecnt := 6, ind := true } (fun t => (t.ind, t.duration))
      = some (false, 0) := by decide
/-- T-PS1. -/
theorem test_pass_tenth_tick : after .pass { base with tickflag := true, icnt := 9, ecnt := 4 }
    (fun t => (t.tickflag, t.icnt, t.ecnt, t.acq, t.ind)) = some (false, 0, 5, .started, false) := by decide
/-- T-PS2. -/
theorem test_pass_starts : after .pass { base with acq := .started, ecnt := 5 }
    (fun t => (t.acq, t.ecnt, t.duration, t.ind, t.adcBusy)) = some (.converting, 0, 5, true, true) := by decide

/-! ### Reset and steps -/

/-- T-RS1. -/
theorem test_reset : after .reset { base with acq := .converting, icnt := 3, tickflag := true, ind := true, duration := 5 }
    (fun t => (t.acq, t.icnt, t.duration, t.tickflag, t.ind, t.adcBusy))
    = some (.idle, 0, 0, false, false, false) := by decide
theorem test_reset_lines : after .reset { base with bus := base.bus.stop, fmt := { Config.fmtSuggested with shown := 1 } }
    (fun t => (t.fmt.shown, t.bus.wire, t.bus.clkOut, t.bus.dioOut)) = some (4, [], .rel, .rel) := by decide
/-- T-AQ8, T-AQ9. -/
theorem test_adcDone_line :
    (nextOf (step { scripted (.adcDone 1023) with adcBusy := true })).map (fun t => (t.adcResult, t.adcDone, t.adcBusy))
      = some (1023, true, false)
    ∧ refusalOf (step (scripted (.adcDone 7))) = some .adcNotEnabled := by decide
/-- R75. -/
theorem test_reserved_word : refusalOf (step (scripted (.word .op [0x14]))) = some .undecodable := by decide
/-- The word of each row of the opcode table runs as the first instruction after reset. -/
theorem test_rows_run : [0x40, 0xC0, 0x88, 0x80, 0xFF, 0x00, 0x01, 0x02, 0x03, 0x04, 0x05, 0x06, 0x07, 0x0A, 0x0B, 0x0C,
    0x0E, 0x2E, 0x4E, 0x0F, 0x10, 0x11, 0x12, 0x13].all
      (fun w => (nextOf (step (State.reset.withFetchWord 8 w))).isSome) = true := by decide +kernel
theorem test_row_frame_runs : (nextOf (step (State.reset.withFetchWord 8 0x08))).isSome = true := by decide +kernel
theorem test_row_update_runs : (nextOf (step (State.reset.withFetchWord 8 0x09))).isSome = true := by decide +kernel
theorem test_row_refresh_runs : (nextOf (step (State.reset.withFetchWord 8 0x0D))).isSome = true := by decide +kernel

/-! ### Witnesses: each meets all hypotheses of the statement it is named after, at the boundaries of its clauses -/

theorem witness_DecodeEncodeAgree : (Instr.extract (2 ^ 32 - 1) 255).wf = true
    ∧ (Instr.round (.explicit (List.replicate 255 255) 255)).wf = true
    ∧ (Instr.compose (.explicit [255] { bright := 7, dp := some 3, blank := true, shown := 7 })).wf = true
    ∧ (Instr.frame 0xFF (List.replicate 255 0xFF)).wf = true := by decide +kernel
theorem witness_DecodedIsWellFormed : decode .op [0x02, 0xFF, 0xFF, 0xFF, 0xFF, 0xFF, 0x13]
    = some (.extract (2 ^ 32 - 1) 255, [0x13]) := by decide
theorem witness_SelectorFields : 0x14 ≤ (0x14 : Byte).toNat % 32 ∧ 0x14 ≤ (0x7F : Byte).toNat % 32
    ∧ (0x6E : Byte).toNat % 128 = 0x6E ∧ 128 ≤ (0x80 : Byte).toNat
    ∧ (0x60 : Byte).toNat < 128 ∧ (0x60 : Byte).toNat % 32 ≠ 0x0E := by decide
theorem witness_StepRunsDecodedWord : (scripted (.word .op [0x13, 0x77])).script = .word .op [0x13, 0x77] :: []
    ∧ decode .op [0x13, 0x77] = some (.pass, [0x77]) := by decide
theorem witness_StepRunsFetchedTableWord : decodeTableWord 8 0x13 = some .pass := by decide +kernel
theorem witness_OutsideLinesStep :
    ({ scripted (.adcDone 1023) with adcBusy := true }.script = .adcDone 1023 :: [])
    ∧ (scripted (.adcDone 0)).script = .adcDone 0 :: [] ∧ (scripted (.adcDone 0)).adcBusy = false
    ∧ (scripted (.acks [true])).script = .acks [true] :: [] := by decide
theorem witness_FreeStepIsOneAgents : base.script = [] := by decide
theorem witness_ExtractLaws : 9999 < 10 ^ 4 ∧ (0 ≤ 4 ∧ 0 < 10 ^ 0 ∧ 3 < 4 - 0) ∧ (2 ≤ 4 ∧ 99 < 10 ^ 2 ∧ 1 < 4 - 2) := by
  decide
theorem witness_RoundDropsOneDigit : 0 < 4 ∧ 3 < 4 := by decide
theorem witness_RoundForms : 4 ≤ 4 := by decide
theorem witness_RoundNonRoundingAndIdempotent : 3 < [1, 2, (9 : Digit)].length + 1 ∧ (5 : Digit).val ≤ 5 := by decide
theorem witness_ExplicitCells : (∃ c ∈ [0, 10], 9 < c) ∧ [(9 : Digit), 0] ≠ [] ∧ [9, 0] = [(9 : Digit), 0].map Fin.val := by
  decide
theorem witness_ComposeFiveSteps : [(1 : Digit), 2][1]? = some 2 := by decide
theorem witness_ComposeAlphabetAndScope : (0x86 : Byte) ∈ composeCells [1] Config.fmtSuggested
    ∧ [(1 : Digit)].length = [(2 : Digit)].length := by decide

/-- The lines of `base` are where its empty trace left them. -/
theorem base_readsLines : ReadsLines base.bus := ⟨rfl, rfl⟩
theorem base_isIdle : base.bus.isIdle := ⟨rfl, rfl⟩

theorem witness_StartCondition : ReadsLines base.bus ∧ base.bus.isIdle := ⟨base_readsLines, base_isIdle⟩

/-- `base` inside a frame, one command byte sent. -/
def midFrame : State := runFrom [.start, .wrbyte 0x40] base

theorem witness_StopCondition : (readWire midFrame.bus.wire).clk = midFrame.bus.clkOut
    ∧ (readWire midFrame.bus.wire).dio = midFrame.bus.dioOut ∧ midFrame.bus.clkOut = .low
    ∧ (readWire midFrame.bus.wire).reader.bits = [] := by decide
theorem witness_FrameReadsBack : ReadsLines base.bus ∧ base.bus.isIdle ∧ ∃ t, exec (.frame 0x40 [0xFF]) base = .next t :=
  ⟨base_readsLines, base_isIdle, _, rfl⟩
theorem witness_UpdateIsThreeFrames : ReadsLines base.bus ∧ base.bus.isIdle ∧ (.regs : UpdateForm) = .regs :=
  ⟨base_readsLines, base_isIdle, rfl⟩
theorem witness_UpdateReachesDisplay : base.bus.isIdle ∧ base.bus.rcv.frame = .idle
    ∧ base.bus.answers 7 = List.replicate 7 false ∧ (∃ t, exec (.update .regs) base = .next t)
    ∧ ∃ t, exec (.update (.explicit #v[1, 2, 3, 4] 7)) base = .next t :=
  ⟨base_isIdle, rfl, by decide, ⟨_, rfl⟩, _, rfl⟩

/-- `base` inside a data frame, `n` segment bytes sent. -/
def inData (n : Nat) : State := runFrom ([.frame 0x40 [], .start, .wrbyte 0xC0] ++ List.replicate n (.wrbyte 0x3F)) base

theorem witness_ByteWriteStoresAtAddress :
    ((inData 0).bus.rcv.frame = .data ∧ (inData 0).bus.rcv.reader = ⟨true, []⟩ ∧ (inData 0).bus.rcv.storable = true
      ∧ (inData 0).bus.nextAck = false ∧ (inData 0).bus.rcv.addr = 0)
    ∧ ((inData 3).bus.rcv.frame = .data ∧ (inData 3).bus.rcv.reader = ⟨true, []⟩ ∧ (inData 3).bus.rcv.storable = true
      ∧ (inData 3).bus.nextAck = false ∧ (inData 3).bus.rcv.addr = 3) := by decide +kernel

/-- `base` with the display's write mode selected. -/
def writeMode : State := runFrom [.frame 0x40 []] base

theorem witness_FrameStoresDataBytes : writeMode.bus.clkOut = .rel ∧ writeMode.bus.dioOut = .rel
    ∧ writeMode.bus.rcv.frame = .idle ∧ writeMode.bus.rcv.autoInc = true
    ∧ [(1 : Byte), 2, 3, 4].length ≤ 4 ∧ ([] : List Byte).length ≤ 4
    ∧ writeMode.bus.answers 5 = List.replicate 5 false ∧ writeMode.bus.answers 1 = List.replicate 1 false := by decide +kernel

/-- `base` just after a start. -/
def started : State := runFrom [.start] base

theorem witness_FramingStoresNothing : (base.bus.isIdle ∧ base.bus.rcv.frame = .idle)
    ∧ (started.bus.rcv.frame = .command ∧ started.bus.rcv.reader = ⟨true, []⟩ ∧ started.bus.nextAck = false)
    ∧ (midFrame.bus.clkOut = .low ∧ midFrame.bus.rcv.reader = ⟨true, []⟩ ∧ midFrame.bus.rcv.frame = .closed)
    ∧ ((inData 0).bus.clkOut = .low ∧ (inData 0).bus.rcv.reader = ⟨true, []⟩ ∧ (inData 0).bus.rcv.frame = .data) :=
  ⟨⟨base_isIdle, rfl⟩, by decide, by decide, by decide +kernel⟩

theorem witness_IdleArm : base.acq = .idle ∧ (9 : Count).toNat < 10 ∧ 10 ≤ (10 : Count).toNat ∧ 10 ≤ (255 : Count).toNat := by
  decide

/-- `base` in a state of the acquisition machine, a conversion complete or not. -/
def acqAt (acq : Acq) (done : Bool) : State := { base with acq := acq, adcDone := done, adcBusy := !done }

theorem witness_StartedArm : (acqAt .started true).acq = .started := by decide
theorem witness_ConvertingArm : (acqAt .converting false).acq = .converting ∧ (acqAt .converting false).adcDone = false
    ∧ (acqAt .converting true).acq = .converting ∧ (acqAt .converting true).adcDone = true := by decide
theorem witness_RefreshIsSixSteps : (acqAt .converting true).adcDone = true := by decide
theorem witness_RefreshDigitsReadBack : (∃ t, exec .refresh (acqAt .converting true) = .next t)
    ∧ 4 ≤ (acqAt .converting true).fmt.shown := ⟨⟨_, rfl⟩, by decide⟩
theorem witness_PeripheralCalls : (acqAt .idle true).adcDone = true := by decide
theorem witness_PassTransitionRing : base.acq = .idle ∧ (acqAt .started false).acq = .started
    ∧ (acqAt .converting false).acq = .converting := by decide
theorem witness_BusActivityNeedsCompletion :
    ∃ t, exec .pass (acqAt .converting true) = .next t ∧ t.bus ≠ (acqAt .converting true).bus := by
  refine ⟨passStep (acqAt .converting true), rfl, fun h => ?_⟩
  have : (passStep (acqAt .converting true)).bus.wire.head? = some .d0 := by decide +kernel
  rw [h] at this
  exact absurd this (by decide)
theorem witness_StuckConversionStalls : (∀ i ∈ [Instr.pass, .tickisr, .pass], i = .pass ∨ i = .tickisr)
    ∧ (acqAt .converting false).acq = .converting ∧ (acqAt .converting false).adcDone = false := by decide
theorem witness_TickCommutes : Instr.adcpoll ≠ .tickpoll ∧ Instr.adcpoll ≠ .pass ∧ Instr.adcpoll ≠ .reset := by decide
theorem witness_IndicatorStep : base.duration = 0
    ∧ ((5 : Count) ≠ 0 ∧ (5 : Count).toNat ≤ (5 : Count).toNat) ∧ (5 : Count).toNat < (6 : Count).toNat := by decide
theorem witness_FlashLasts : base.tickflag = false := by decide
theorem witness_TenTicksToStarted : base.acq = .idle ∧ base.tickflag = false ∧ base.duration = 0
    ∧ base.icnt.toNat + 10 ≤ 10 ∧ base.icnt.toNat + 9 ≤ 10 ∧ 0 < 9 := by decide
theorem witness_FormatWrittenByResetOnly : (∃ t, exec .reset base = .next t)
    ∧ (∃ t, exec .pass base = .next t) ∧ Instr.pass ≠ .reset := ⟨⟨_, rfl⟩, ⟨_, rfl⟩, by decide⟩

/-- `base` with the receiver ready to store at an address. -/
def readyAt (a : Nat) : State :=
  { base with bus := { base.bus with rcv := { base.bus.rcv with autoInc := true, addr := a } } }

theorem witness_SegmentByteStored : ((readyAt 0).bus.rcv.autoInc = true ∧ (readyAt 0).bus.rcv.addr < 4)
    ∧ ((readyAt 3).bus.rcv.autoInc = true ∧ (readyAt 3).bus.rcv.addr < 4) := by decide
theorem witness_EveryInstructionCompletes : ¬refusedOperands (.round (.explicit [9, 0] 0)) := by
  simp [refusedOperands]
theorem witness_OtherAddressesUntouched : ∃ t, exec (.segb true 0) base = .next t := ⟨_, rfl⟩
theorem witness_LinesWrittenByDriverOnly : (∃ t, exec .adcpoll base = .next t) ∧ Instr.adcpoll ≠ .reset
    ∧ drivesBus .adcpoll = false := ⟨⟨_, rfl⟩, by decide, rfl⟩
theorem witness_StepKeepsInvariant : Inv (scripted (.word .op [0x13]))
    ∧ ∃ t, step (scripted (.word .op [0x13])) = .next t := by
  refine ⟨?_, _, rfl⟩
  constructor
  case cells_wf => exact List.Pairwise.nil
  case cells_inSpace => intro c h; cases h
  all_goals decide

end Sys2Proof.Tests
end

section
/-! What a step is, by the head of the script, and who takes it when there is none (00_scope.md R8). -/

namespace Sys2Proof.Machine

open Sys2Proof

theorem step_of_script_nil {s : State} (h : s.script = []) : step s = freeStep s := by simp [step, h]

/-- One agent's step, in the unscripted state: the peripheral's only while it is enabled (43_acquisition_fsm.md R166). -/
theorem freeStep_cases (s : State) :
    freeStep s = exec .pass s.unscripted ∨ freeStep s = exec .tickisr s.unscripted
      ∨ (s.adcBusy = true ∧ ∃ code, freeStep s = .next (adcComplete code s.unscripted)) := by
  unfold freeStep
  cases Config.freeAgent s.envDraws with
  | main => exact .inl rfl
  | tick => exact .inr (.inl rfl)
  | adc =>
    cases hBusy : s.adcBusy with
    | false => exact .inl rfl
    | true => exact .inr (.inr ⟨rfl, Config.freeConversion s.envDraws, rfl⟩)

/-- Settles O10, by the agent that takes the step: PASS and TICKISR answer a next state from every state, and the
peripheral's completion is one. -/
theorem freeStepIsOneAgents : Obligations.FreeStepIsOneAgents := by
  intro s hScript
  rw [step_of_script_nil hScript]
  obtain hPass | hTick | ⟨hBusy, code, hDone⟩ := freeStep_cases s
  · exact ⟨passStep s.unscripted, s.unscripted, hPass.trans (exec_pass _), rfl, .inl (exec_pass _)⟩
  · exact ⟨takeTick s.unscripted, s.unscripted, hTick.trans (exec_tickisr _), rfl, .inr (.inl (exec_tickisr _))⟩
  · exact ⟨adcComplete code s.unscripted, s.unscripted, hDone, rfl, .inr (.inr ⟨hBusy, code, rfl⟩)⟩

end Sys2Proof.Machine
end

section
/-! What any instruction can do to the bus, as one inversion lemma: RESET resets it, the driver's operations grow it, and
every other instruction leaves the lines and the trace alone. -/

namespace Sys2Proof.Machine

open Sys2Proof Sys2Proof.Claims

/-- What an instruction answers is one state. -/
theorem exec_next_unique {i : Instr} {s t u : State} (h : exec i s = .next t) (hu : exec i s = .next u) : t = u :=
  Host.Outcome.next.inj (h.symm.trans hu)

/-- ROUND answers a next state only by putting an array of cells. -/
theorem exec_round_next {form : RoundForm} {s t : State} (h : exec (.round form) s = .next t) :
    ∃ ds, t = putCells ds s := by
  cases form with
  | regs => exact ⟨_, exec_next_unique h (exec_round_regs s)⟩
  | shown n => exact ⟨_, exec_next_unique h (exec_round_shown n s)⟩
  | explicit cells shown =>
    rw [exec_round_explicit] at h
    obtain ⟨ds, -, hRun⟩ := withCells_next h
    exact ⟨_, (Host.Outcome.next.inj hRun).symm⟩

/-- COMPOSE answers a next state only by putting an array of segment bytes. -/
theorem exec_compose_next {form : ComposeForm} {s t : State} (h : exec (.compose form) s = .next t) :
    ∃ bs, t = putSegs bs s := by
  cases form with
  | regs => exact ⟨_, exec_next_unique h (exec_compose_regs s)⟩
  | explicit cells fmt =>
    rw [exec_compose_explicit] at h
    obtain ⟨ds, -, hRun⟩ := withCells_next h
    exact ⟨_, (Host.Outcome.next.inj hRun).symm⟩

/-- UPDATE answers the state with its bus updated, in either form. -/
theorem exec_update_next {form : UpdateForm} {s t : State} (h : exec (.update form) s = .next t) :
    ∃ seg bright, t = { s with bus := s.bus.update seg bright } := by
  cases form with
  | regs => exact ⟨_, _, exec_next_unique h (exec_update_regs s)⟩
  | explicit seg bright => exact ⟨_, _, exec_next_unique h (exec_update_explicit seg bright s)⟩

@[simp] theorem command_frame (r : Receiver) (c : Command) : (r.command c).frame = r.frame := by
  cases c <;> rfl

/-- A change of what the receiver holds that leaves its place in the trace: what a wire byte run as an instruction may do
to it (log 28). -/
structure ContentsStep (r r' : Receiver) : Prop where
  cells : CellsStep r r'
  reader : r'.reader = r.reader
  frame : r'.frame = r.frame

theorem ContentsStep.refl (r : Receiver) : ContentsStep r r := ⟨.inl rfl, rfl, rfl⟩

theorem contentsStep_command (r : Receiver) (c : Command) : ContentsStep r (r.command c) :=
  ⟨.inl (command_cells r c), command_reader r c, command_frame r c⟩

theorem contentsStep_segment (r : Receiver) (v : Byte) : ContentsStep r (r.segment v) :=
  ⟨.inr (.inr ⟨v, rfl⟩), segment_reader r v, segment_frame r v⟩

/-- What an instruction that completes does to the bus. -/
inductive BusEffect (i : Instr) (b : Bus) : Bus → Prop
  | reset (hReset : i = .reset) : BusEffect i b b.afterReset
  | grows {c : Bus} (hDrives : drivesBus i = true) (hGrows : b.Grows c) : BusEffect i b c
  | contents {r : Receiver} (hDrives : drivesBus i = false) (hStep : ContentsStep b.rcv r) :
      BusEffect i b { b with rcv := r }

theorem BusEffect.same {i : Instr} (hDrives : drivesBus i = false) (b : Bus) : BusEffect i b b :=
  .contents hDrives (.refl b.rcv)

/-- The bus after any instruction that completes. -/
theorem exec_bus {i : Instr} {s t : State} (h : exec i s = .next t) : BusEffect i s.bus t.bus := by
  cases i with
  | reset => obtain rfl := exec_next_unique h rfl; exact .reset rfl
  | dataCmd | addrCmd | dispOn _ | dispOff =>
    obtain rfl := exec_next_unique h rfl; exact .contents rfl (contentsStep_command _ _)
  | segb dp pattern =>
    obtain rfl := exec_next_unique h (exec_segb dp pattern s); exact .contents rfl (contentsStep_segment _ _)
  | round _ => obtain ⟨ds, rfl⟩ := exec_round_next h; exact .same rfl s.bus
  | compose _ => obtain ⟨bs, rfl⟩ := exec_compose_next h; exact .same rfl s.bus
  | mvconv _ | extract _ _ | adcstart | adcpoll | adcread | tickisr | indstart =>
    obtain rfl := exec_next_unique h rfl; exact .same rfl s.bus
  | tickpoll => obtain rfl := exec_next_unique h (exec_tickpoll s); rw [tickPoll_bus]; exact .same rfl s.bus
  | indstep => obtain rfl := exec_next_unique h (exec_indstep s); rw [indStep_bus]; exact .same rfl s.bus
  | start => obtain rfl := exec_next_unique h (exec_start s); exact .grows rfl (grows_start s.bus)
  | wrbyte b => obtain rfl := exec_next_unique h (exec_wrbyte b s); dsimp only; exact .grows rfl (grows_wrbyte s.bus b)
  | stop => obtain rfl := exec_next_unique h (exec_stop s); exact .grows rfl (grows_stop s.bus)
  | frame first rest => obtain rfl := exec_next_unique h (exec_frame first rest s); exact .grows rfl (grows_frame s.bus _)
  | update _ => obtain ⟨seg, bright, rfl⟩ := exec_update_next h; exact .grows rfl (grows_update _ seg bright)
  | refresh =>
    obtain rfl := exec_next_unique h (exec_refresh s); rw [refresh_bus]; exact .grows rfl (grows_update s.bus _ _)
  | acqstepIdle | acqstepStarted | acqstepConverting =>
    obtain rfl := exec_next_unique h rfl; exact .grows rfl (acqStep_bus s)
  | pass => obtain rfl := exec_next_unique h (exec_pass s); exact .grows rfl (passStep_bus s)

/-- Settles O58, by what the instruction does to the bus: the trace of a bus that grows is only added to, and what
drives nothing changes the receiver's contents alone. -/
theorem linesWrittenByDriverOnly : Obligations.LinesWrittenByDriverOnly := by
  intro i s t hExec hNotReset
  have hEffect := exec_bus hExec
  generalize t.bus = c at hEffect ⊢
  cases hEffect with
  | reset hReset => exact absurd hReset hNotReset
  | grows hDrives hGrows => exact ⟨grows_wire hGrows, fun hNot => by simp [hDrives] at hNot⟩
  | contents => exact ⟨List.prefix_rfl, fun _ => ⟨rfl, rfl, rfl⟩⟩

end Sys2Proof.Machine
end

section
/-! What any instruction can do to the control registers, as one inversion lemma, and the statement about FMT. -/

namespace Sys2Proof.Machine

open Sys2Proof

/-- The registers that decide what the block does next, and FMT with its open parameter. -/
structure Control where
  acq : Acq
  fmt : Fmt
  fmtInit : Fmt
  duration : Count
  ind : Bool
  adcDone : Bool
  adcBusy : Bool

/-- The control registers of a state. -/
def State.control (s : State) : Control :=
  { acq := s.acq, fmt := s.fmt, fmtInit := s.fmtInit, duration := s.duration, ind := s.ind
    adcDone := s.adcDone, adcBusy := s.adcBusy }

/-- The control registers at reset: 10_state.md R30, with the format and ADC_DONE left open. -/
def Control.atReset (f : Fmt) (done : Bool) : Control :=
  { acq := .idle, fmt := f, fmtInit := f, duration := 0, ind := false, adcDone := done, adcBusy := false }

@[simp] theorem resetWith_control (f : Fmt) : (State.resetWith f).control = .atReset f false := rfl

theorem execReset_control {s t : State} (h : execReset s = .next t) :
    t.control = .atReset s.fmtInit (Config.freeAdcDone s.envDraws) := by
  obtain rfl := Host.Outcome.next.inj h
  rfl

@[simp] theorem tickPoll_control (s : State) : (tickPoll s).control = s.control := by
  unfold tickPoll; split <;> rfl

/-- ACQSTEP makes at most one transition (43_acquisition_fsm.md R160, R171). -/
theorem acqStep_cases (s : State) :
    acqStep s = s
      ∨ (s.acq = .idle ∧ intervalElapsed s.icnt = true ∧ acqStep s = { s with icnt := 0, acq := .started })
      ∨ (s.acq = .started ∧ acqStep s = acqStartedArm s)
      ∨ (s.acq = .converting ∧ s.adcDone = true ∧ acqStep s = { refresh s with acq := .idle }) := by
  cases hAcq : s.acq with
  | idle =>
    rw [acqStep_idle hAcq, acqIdleArm]
    split
    · next hElapsed => exact .inr (.inl ⟨rfl, hElapsed, rfl⟩)
    · exact .inl rfl
  | started => exact .inr (.inr (.inl ⟨rfl, acqStep_started hAcq⟩))
  | converting =>
    rw [acqStep_converting hAcq, acqConvertingArm]
    split
    · next hDone => exact .inr (.inr (.inr ⟨rfl, hDone, rfl⟩))
    · exact .inl rfl

/-- INDSTEP does nothing, lights the indicator of an active flash, or ends the flash (44_scheduler_indicator.md R186). -/
theorem indStep_cases (s : State) :
    indStep s = s ∨ (s.duration ≠ 0 ∧ indStep s = { s with ind := true })
      ∨ indStep s = { s with ind := false, duration := 0 } := by
  unfold indStep
  split
  · next hActive =>
    split
    · exact .inr (.inl ⟨of_decide_eq_true hActive, rfl⟩)
    · exact .inr (.inr rfl)
  · exact .inl rfl

/-- What an instruction that completes does to the control registers: they stay, or a named operation writes them. -/
inductive ControlEffect (i : Instr) (s : State) : State → Prop
  | same {t : State} (hSame : t.control = s.control) : ControlEffect i s t
  | reset {t : State} (hReset : i = .reset) (hExec : execReset s = .next t) : ControlEffect i s t
  | adcStart : ControlEffect i s (adcStart s)
  | acqStep : ControlEffect i s (acqStep s)
  | indStart : ControlEffect i s (indStart s)
  | indStep : ControlEffect i s (indStep s)
  | pass : ControlEffect i s (passStep s)

/-- The control registers after any instruction that completes. -/
theorem exec_control {i : Instr} {s t : State} (h : exec i s = .next t) : ControlEffect i s t := by
  cases i with
  | reset => exact .reset rfl h
  | round _ => obtain ⟨ds, rfl⟩ := exec_round_next h; exact .same rfl
  | compose _ => obtain ⟨bs, rfl⟩ := exec_compose_next h; exact .same rfl
  | update _ => obtain ⟨seg, bright, rfl⟩ := exec_update_next h; exact .same rfl
  | refresh => obtain rfl := exec_next_unique h (exec_refresh s); exact .same rfl
  | dataCmd | addrCmd | dispOn _ | dispOff | segb _ _ | mvconv _ | extract _ _ | start | wrbyte _ | stop | frame _ _
  | adcpoll | adcread | tickisr => obtain rfl := exec_next_unique h rfl; exact .same rfl
  | tickpoll => obtain rfl := exec_next_unique h (exec_tickpoll s); exact .same (tickPoll_control s)
  | adcstart => obtain rfl := exec_next_unique h (exec_adcstart s); exact .adcStart
  | acqstepIdle | acqstepStarted | acqstepConverting => obtain rfl := exec_next_unique h rfl; exact .acqStep
  | indstart => obtain rfl := exec_next_unique h (exec_indstart s); exact .indStart
  | indstep => obtain rfl := exec_next_unique h (exec_indstep s); exact .indStep
  | pass => obtain rfl := exec_next_unique h (exec_pass s); exact .pass

/-! ### FMT and FMT_INIT -/

theorem acqStep_formats (s : State) : (acqStep s).fmtInit = s.fmtInit ∧ (acqStep s).fmt = s.fmt := by
  obtain h | ⟨-, -, h⟩ | ⟨-, h⟩ | ⟨-, -, h⟩ := acqStep_cases s <;> rw [h] <;> exact ⟨rfl, rfl⟩

theorem indStep_formats (s : State) : (indStep s).fmtInit = s.fmtInit ∧ (indStep s).fmt = s.fmt := by
  obtain h | ⟨-, h⟩ | h := indStep_cases s <;> rw [h] <;> exact ⟨rfl, rfl⟩

/-- Equal control registers hold equal formats. -/
theorem formats_of_control {s t : State} (h : t.control = s.control) : t.fmtInit = s.fmtInit ∧ t.fmt = s.fmt :=
  ⟨congrArg Control.fmtInit h, congrArg Control.fmt h⟩

theorem passStep_formats (s : State) : (passStep s).fmtInit = s.fmtInit ∧ (passStep s).fmt = s.fmt := by
  obtain ⟨hInit₁, hFmt₁⟩ := formats_of_control (tickPoll_control s)
  obtain ⟨hInit₂, hFmt₂⟩ := acqStep_formats (tickPoll s)
  obtain ⟨hInit₃, hFmt₃⟩ := indStep_formats (acqStep (tickPoll s))
  exact ⟨hInit₃.trans (hInit₂.trans hInit₁), hFmt₃.trans (hFmt₂.trans hFmt₁)⟩

/-- Settles O53, by what the instruction does to the control registers: RESET alone writes FMT. -/
theorem formatWrittenByResetOnly : Obligations.FormatWrittenByResetOnly := by
  intro i s t hExec
  cases exec_control hExec with
  | same hSame => exact (formats_of_control hSame).imp_right fun h _ => h
  | reset hReset hRun => exact ⟨congrArg Control.fmtInit (execReset_control hRun), absurd hReset⟩
  | adcStart => exact ⟨rfl, fun _ => rfl⟩
  | acqStep => exact (acqStep_formats s).imp_right fun h _ => h
  | indStart => exact ⟨rfl, fun _ => rfl⟩
  | indStep => exact (indStep_formats s).imp_right fun h _ => h
  | pass => exact (passStep_formats s).imp_right fun h _ => h

end Sys2Proof.Machine
end

section
/-! The invariant in its two parts, what the bus keeps and what the control registers keep; each instruction, and each
step, keeps both. -/

namespace Sys2Proof.Machine

open Sys2Proof Sys2Proof.Claims

/-- The receiver is outside a frame exactly when the reading of the trace is (PRESUMED, log 15). -/
def Receiver.framesAgree (r : Receiver) : Prop := r.frame = .idle ↔ r.reader.inFrame = false

/-- The clauses of `Inv` about the bus. -/
structure BusInv (b : Bus) : Prop where
  cells_wf : b.rcv.cells.wf
  cells_inSpace : b.rcv.cells.inSpace
  clk_read : (readWire b.wire).clk = b.clkOut
  dio_read : (readWire b.wire).dio = b.dioOut
  reader_read : (readWire b.wire).reader = b.rcv.reader
  bits_le : b.rcv.reader.bits.length ≤ 8
  frame_read : b.rcv.framesAgree

/-- The clauses of `Inv` about the registers. -/
structure ControlInv (c : Control) : Prop where
  fmt_init : c.fmt = c.fmtInit
  adc_excl : ¬(c.adcBusy = true ∧ c.adcDone = true)
  converting_started : c.acq = .converting → c.adcBusy = true ∨ c.adcDone = true
  duration_cases : c.duration = 0 ∨ c.duration = Config.flashTicks
  ind_active : c.ind = true → c.duration = Config.flashTicks

theorem inv_iff (s : State) : Inv s ↔ BusInv s.bus ∧ ControlInv s.control :=
  ⟨fun h => ⟨⟨h.cells_wf, h.cells_inSpace, h.clk_read, h.dio_read, h.reader_read, h.bits_le, h.frame_read⟩,
      ⟨h.fmt_init, h.adc_excl, h.converting_started, h.duration_cases, h.ind_active⟩⟩,
    fun ⟨b, c⟩ => ⟨b.cells_wf, b.cells_inSpace, b.clk_read, b.dio_read, b.reader_read, b.bits_le, b.frame_read,
      c.fmt_init, c.adc_excl, c.converting_started, c.duration_cases, c.ind_active⟩⟩

/-! ### The reader and the receiver at one event -/

/-- What the reader of the trace does at one event (42_serial_driver.md R140): nothing, one more bit, a byte completed, a
start, a stop. -/
theorem reader_see_cases (r : Reader) (clk dio : Drive) (e : Event) :
    r.see clk dio e = (r, none)
      ∨ (∃ bit, r.bits.length < 8 ∧ r.see clk dio e = ({ r with bits := r.bits ++ [bit] }, none))
      ∨ (∃ b, r.see clk dio e = ({ r with bits := [] }, some (.byte b)))
      ∨ r.see clk dio e = ({ inFrame := true, bits := [] }, some .start)
      ∨ r.see clk dio e = ({ inFrame := false, bits := [] }, some .stop) := by
  unfold Reader.see
  split
  · split
    · split
      · next hBits => exact .inr (.inl ⟨_, hBits, rfl⟩)
      · exact .inr (.inr (.inl ⟨_, rfl⟩))
    · exact .inl rfl
  · exact .inr (.inr (.inr (.inl rfl)))
  · exact .inr (.inr (.inr (.inr rfl)))
  · exact .inl rfl

theorem reader_see_bits_le {r : Reader} (h : r.bits.length ≤ 8) (clk dio : Drive) (e : Event) :
    (r.see clk dio e).1.bits.length ≤ 8 := by
  obtain hSee | ⟨bit, hBits, hSee⟩ | ⟨b, hSee⟩ | hSee | hSee := reader_see_cases r clk dio e <;> rw [hSee]
  · exact h
  · simpa using hBits
  all_goals exact Nat.zero_le 8

theorem frameAfter_ne_idle (c : Command) : frameAfter c ≠ .idle := by cases c <;> exact FramePos.noConfusion

theorem byte_frame_idle_iff (r : Receiver) (b : Byte) : (r.byte b).frame = .idle ↔ r.frame = .idle := by
  unfold Receiver.byte
  cases hFrame : r.frame with
  | idle => simp [hFrame]
  | command =>
    cases decodeCommand b with
    | some c => simp [frameAfter_ne_idle]
    | none => simp
  | data =>
    dsimp only
    split
    · simp [hFrame]
    · simp
  | closed => simp
  | unknown => simp

theorem nack_frame_idle_iff (r : Receiver) : r.nack.frame = .idle ↔ r.frame = .idle := by
  cases hFrame : r.frame <;> simp [Receiver.nack, hFrame]

theorem start_frame_ne_idle (r : Receiver) : r.start.frame ≠ .idle := by
  cases hFrame : r.frame <;> simp [Receiver.start, hFrame]

theorem stop_frame (r : Receiver) : r.stop.frame = .idle := by
  cases hFrame : r.frame <;> simp [Receiver.stop, hFrame]

/-- At one event the receiver takes a missing acknowledgment, or what its reader read. -/
theorem see_cases (r : Receiver) (clk dio : Drive) (e : Event) :
    r.see clk dio e = r.nack
      ∨ r.see clk dio e
        = ({ r with reader := (r.reader.see clk dio e).1 } : Receiver).take (r.reader.see clk dio e).2 := by
  unfold Receiver.see
  split
  · exact .inl rfl
  · exact .inr rfl

/-- Only a start enters a frame and only a stop leaves one, for the reader and for the receiver alike. -/
theorem see_framesAgree {r : Receiver} (h : r.framesAgree) (clk dio : Drive) (e : Event) :
    (r.see clk dio e).framesAgree := by
  have hReader := (see_step r clk dio e).2
  unfold Receiver.framesAgree at h ⊢
  obtain hNack | hTake := see_cases r clk dio e
  · rw [hNack, (nack_step r).2, nack_frame_idle_iff]
    exact h
  · rw [hReader, hTake]
    obtain hSee | ⟨bit, -, hSee⟩ | ⟨b, hSee⟩ | hSee | hSee := reader_see_cases r.reader clk dio e <;> rw [hSee]
    · exact h
    · exact h
    · exact (byte_frame_idle_iff _ b).trans h
    · exact iff_of_false (start_frame_ne_idle _) (by decide)
    · exact iff_of_true (stop_frame _) rfl

/-! ### The bus -/

/-- The invariant does not read the answers or how the step was issued. -/
theorem BusInv.congr {b c : Bus} (h : BusInv b) (hClk : c.clkOut = b.clkOut) (hDio : c.dioOut = b.dioOut)
    (hWire : c.wire = b.wire) (hRcv : c.rcv = b.rcv) : BusInv c := by
  obtain ⟨clk, dio, wire, rcv, acks, scripted, draws⟩ := c
  obtain rfl := hClk
  obtain rfl := hDio
  obtain rfl := hWire
  obtain rfl := hRcv
  exact { h with }

theorem BusInv.emit {b : Bus} (h : BusInv b) (e : Event) : BusInv (b.emit e) := by
  obtain ⟨hCells, hReader⟩ := see_step b.rcv b.clkOut b.dioOut e
  exact {
    cells_wf := CellsStep_wf hCells h.cells_wf
    cells_inSpace := CellsStep_inSpace hCells h.cells_inSpace
    clk_read := by rw [emit_wire, readWire_concat, Reading.see, h.clk_read, emit_clkOut]
    dio_read := by rw [emit_wire, readWire_concat, Reading.see, h.dio_read, emit_dioOut]
    reader_read := by
      rw [emit_wire, readWire_concat, Reading.see, h.clk_read, h.dio_read, h.reader_read, emit_rcv, hReader]
    bits_le := by rw [emit_rcv, hReader]; exact reader_see_bits_le h.bits_le ..
    frame_read := see_framesAgree h.frame_read .. }

theorem BusInv.grows {b c : Bus} (h : BusInv b) (g : b.Grows c) : BusInv c := by
  induction g with
  | refl => exact h
  | emit e _ ih => exact ih.emit e
  | dropAck _ ih => exact ih.congr rfl rfl rfl rfl

theorem BusInv.contents {b : Bus} (h : BusInv b) {r : Receiver} (k : ContentsStep b.rcv r) :
    BusInv { b with rcv := r } where
  cells_wf := CellsStep_wf k.cells h.cells_wf
  cells_inSpace := CellsStep_inSpace k.cells h.cells_inSpace
  clk_read := h.clk_read
  dio_read := h.dio_read
  reader_read := h.reader_read.trans k.reader.symm
  bits_le := by rw [k.reader]; exact h.bits_le
  frame_read := by unfold Receiver.framesAgree; rw [k.reader, k.frame]; exact h.frame_read

theorem BusInv.afterReset {b : Bus} (h : BusInv b) : BusInv b.afterReset where
  cells_wf := scramble_wf h.cells_wf
  cells_inSpace := scramble_inSpace h.cells_inSpace
  clk_read := rfl
  dio_read := rfl
  reader_read := rfl
  bits_le := Nat.zero_le 8
  frame_read := iff_of_true rfl rfl

theorem BusInv.exec {i : Instr} {s t : State} (h : BusInv s.bus) (hExec : exec i s = .next t) : BusInv t.bus := by
  have hEffect := exec_bus hExec
  generalize t.bus = c at hEffect ⊢
  cases hEffect with
  | reset => exact h.afterReset
  | grows _ hGrows => exact h.grows hGrows
  | contents _ hStep => exact h.contents hStep

/-! ### The control registers -/

theorem ControlInv.adcStart {s : State} (h : ControlInv s.control) : ControlInv (adcStart s).control :=
  { h with
    adc_excl := fun ⟨_, hDone⟩ => Bool.false_ne_true hDone
    converting_started := fun _ => .inl rfl }

theorem ControlInv.adcComplete {s : State} (h : ControlInv s.control) (code : RawCode) :
    ControlInv (adcComplete code s).control :=
  { h with
    adc_excl := fun ⟨hBusy, _⟩ => Bool.false_ne_true hBusy
    converting_started := fun _ => .inr rfl }

theorem ControlInv.indStart {s : State} (h : ControlInv s.control) : ControlInv (indStart s).control :=
  { h with
    duration_cases := .inr rfl
    ind_active := fun _ => rfl }

theorem ControlInv.indStep {s : State} (h : ControlInv s.control) : ControlInv (indStep s).control := by
  obtain hStep | ⟨hActive, hStep⟩ | hStep := indStep_cases s <;> rw [hStep]
  · exact h
  · exact { h with ind_active := fun _ => h.duration_cases.resolve_left hActive }
  · exact { h with duration_cases := .inl rfl, ind_active := fun hInd => absurd hInd Bool.false_ne_true }

/-- The Started arm starts a conversion before it enters Converting (43_acquisition_fsm.md R162). -/
theorem ControlInv.acqStep {s : State} (h : ControlInv s.control) : ControlInv (acqStep s).control := by
  obtain hStep | ⟨-, -, hStep⟩ | ⟨-, hStep⟩ | ⟨-, -, hStep⟩ := acqStep_cases s <;> rw [hStep]
  · exact h
  · exact { h with converting_started := fun hAcq => nomatch hAcq }
  · exact { h.adcStart.indStart with converting_started := fun _ => .inl rfl }
  · exact { h with converting_started := fun hAcq => nomatch hAcq }

theorem ControlInv.passStep {s : State} (h : ControlInv s.control) : ControlInv (passStep s).control :=
  have hPoll : ControlInv (tickPoll s).control := by rw [tickPoll_control]; exact h
  hPoll.acqStep.indStep

theorem controlInv_atReset (f : Fmt) (done : Bool) : ControlInv (.atReset f done) where
  fmt_init := rfl
  adc_excl := fun ⟨hBusy, _⟩ => Bool.false_ne_true hBusy
  converting_started := fun hAcq => nomatch hAcq
  duration_cases := .inl rfl
  ind_active := fun hInd => absurd hInd Bool.false_ne_true

theorem ControlInv.exec {i : Instr} {s t : State} (h : ControlInv s.control) (hExec : exec i s = .next t) :
    ControlInv t.control := by
  cases exec_control hExec with
  | same hSame => rw [hSame]; exact h
  | reset _ hRun => rw [execReset_control hRun]; exact controlInv_atReset _ _
  | adcStart => exact h.adcStart
  | acqStep => exact h.acqStep
  | indStart => exact h.indStart
  | indStep => exact h.indStep
  | pass => exact h.passStep

/-! ### Instructions and steps -/

theorem exec_keeps_inv {i : Instr} {s t : State} (h : Inv s) (hExec : exec i s = .next t) : Inv t := by
  obtain ⟨hBus, hControl⟩ := (inv_iff s).mp h
  exact (inv_iff t).mpr ⟨hBus.exec hExec, hControl.exec hExec⟩

theorem adcComplete_keeps_inv {s : State} (h : Inv s) (code : RawCode) : Inv (adcComplete code s) := by
  obtain ⟨hBus, hControl⟩ := (inv_iff s).mp h
  exact (inv_iff _).mpr ⟨hBus, hControl.adcComplete code⟩

/-- What takes a step, and the answers it will draw, do not touch the invariant. -/
theorem Inv.congr {s u : State} (h : Inv s) (hClk : u.bus.clkOut = s.bus.clkOut) (hDio : u.bus.dioOut = s.bus.dioOut)
    (hWire : u.bus.wire = s.bus.wire) (hRcv : u.bus.rcv = s.bus.rcv) (hControl : u.control = s.control) : Inv u := by
  obtain ⟨hBusInv, hControlInv⟩ := (inv_iff s).mp h
  exact (inv_iff u).mpr ⟨hBusInv.congr hClk hDio hWire hRcv, by rw [hControl]; exact hControlInv⟩

theorem fixAcks_keeps_inv {s : State} (h : Inv s) (levels : List Bool) : Inv (fixAcks levels s) :=
  h.congr rfl rfl rfl rfl rfl

theorem popLine_keeps_inv {s : State} (h : Inv s) (rest : List Stimulus) : Inv (s.popLine rest) :=
  h.congr rfl rfl rfl rfl rfl

theorem unscripted_keeps_inv {s : State} (h : Inv s) : Inv s.unscripted := h.congr rfl rfl rfl rfl rfl

theorem step_of_script_cons {s : State} {line : Stimulus} {rest : List Stimulus} (h : s.script = line :: rest) :
    step s = runLine line (s.popLine rest) := by simp [step, h]

/-- A script line answers a next state by running an instruction, completing a conversion, or fixing answers. -/
theorem runLine_cases {line : Stimulus} {s t : State} (h : runLine line s = .next t) :
    (∃ format bytes i, line = .word format bytes ∧ fetchWord format bytes = some i ∧ exec i s = .next t)
      ∨ (∃ code, line = .adcDone code ∧ s.adcBusy = true ∧ t = adcComplete code s)
      ∨ ∃ levels, line = .acks levels ∧ t = fixAcks levels s := by
  cases line with
  | word format bytes =>
    simp only [runLine] at h
    split at h
    · next i hFetch => exact .inl ⟨format, bytes, i, rfl, hFetch, h⟩
    · cases h
  | adcDone code =>
    simp only [runLine] at h
    split at h
    · next hBusy => exact .inr (.inl ⟨code, rfl, hBusy, (Host.Outcome.next.inj h).symm⟩)
    · cases h
  | acks levels => exact .inr (.inr ⟨levels, rfl, (Host.Outcome.next.inj h).symm⟩)

theorem freeStep_keeps_inv {s t : State} (h : Inv s) (hStep : freeStep s = .next t) : Inv t := by
  have hFree := unscripted_keeps_inv h
  obtain hPass | hTick | ⟨-, code, hDone⟩ := freeStep_cases s
  · exact exec_keeps_inv hFree (hPass.symm.trans hStep)
  · exact exec_keeps_inv hFree (hTick.symm.trans hStep)
  · obtain rfl := Host.Outcome.next.inj (hDone.symm.trans hStep)
    exact adcComplete_keeps_inv hFree code

theorem runLine_keeps_inv {line : Stimulus} {s t : State} (h : Inv s) (hStep : runLine line s = .next t) : Inv t := by
  obtain ⟨-, -, i, -, -, hExec⟩ | ⟨code, -, -, rfl⟩ | ⟨levels, -, rfl⟩ := runLine_cases hStep
  · exact exec_keeps_inv h hExec
  · exact adcComplete_keeps_inv h code
  · exact fixAcks_keeps_inv h levels

/-- Settles O60, by the head of the script: an agent's step or a script line, each of which keeps the invariant of the bus
and of the control registers. -/
theorem stepKeepsInvariant : Obligations.StepKeepsInvariant := by
  intro s t hInv hStep
  cases hScript : s.script with
  | nil =>
    rw [step_of_script_nil hScript] at hStep
    exact freeStep_keeps_inv hInv hStep
  | cons line rest =>
    rw [step_of_script_cons hScript] at hStep
    exact runLine_keeps_inv (popLine_keeps_inv hInv rest) hStep

end Sys2Proof.Machine
end

section
/-! The values right after reset and after the operation RESET (10_state.md R30). -/

namespace Sys2Proof.Machine

open Sys2Proof

theorem afterReset_isIdle (b : Bus) : b.afterReset.isIdle := ⟨rfl, rfl⟩

/-- RESET leaves every address beyond the cells as it was (log 16). -/
theorem afterReset_read (b : Bus) {a : Nat} (ha : Config.width ≤ a) :
    b.afterReset.rcv.cells.read a = b.rcv.cells.read a := scramble_read ha

theorem reset_isIdle : Bus.reset.isIdle := ⟨rfl, rfl⟩

theorem busInv_reset : BusInv Bus.reset where
  cells_wf := List.Pairwise.nil
  cells_inSpace := by simp [Bus.reset, Receiver.reset, Memory.inSpace]
  clk_read := rfl
  dio_read := rfl
  reader_read := rfl
  bits_le := Nat.zero_le 8
  frame_read := iff_of_true rfl rfl

/-- Settles O51, by the state RESET answers, field by field. -/
theorem resetOperation : Obligations.ResetOperation := fun s =>
  ⟨_, exec_reset s, rfl, rfl, rfl, rfl, rfl, rfl, rfl, rfl, afterReset_isIdle s.bus, rfl, rfl, rfl, rfl, rfl, rfl,
    fun _ => afterReset_read s.bus⟩

/-- Settles O52, field by field of the reset state. -/
theorem resetStateValues : Obligations.ResetStateValues := fun _ =>
  ⟨rfl, rfl, rfl, rfl, rfl, rfl, rfl, reset_isIdle, rfl, rfl⟩

/-- Settles O59, by the two parts of the invariant. -/
theorem resetMeetsInvariant : Obligations.ResetMeetsInvariant := fun f =>
  (inv_iff _).mpr ⟨busInv_reset, controlInv_atReset f false⟩

end Sys2Proof.Machine
end

section
/-! The display's receiver while every byte is acknowledged: what one byte, a frame and an update leave in it
(20_memory.md R41, R44; log 15). -/

namespace Sys2Proof.Machine

open Sys2Proof

/-! ### Bytes stored one after another -/

/-- Bytes written at rising addresses from `a` on: what a run of data bytes leaves (20_memory.md R44). -/
def Memory.writeFrom (m : Memory) (a : Nat) : List Byte → Memory
  | [] => m
  | v :: vs => Memory.writeFrom (m.write a v) (a + 1) vs

@[simp] theorem writeFrom_nil (m : Memory) (a : Nat) : m.writeFrom a [] = m := rfl
@[simp] theorem writeFrom_cons (m : Memory) (a : Nat) (v : Byte) (vs : List Byte) :
    m.writeFrom a (v :: vs) = (m.write a v).writeFrom (a + 1) vs := rfl

theorem read_writeFrom_outside (m : Memory) (vs : List Byte) {a x : Nat} (h : x < a ∨ a + vs.length ≤ x) :
    (m.writeFrom a vs).read x = m.read x := by
  induction vs generalizing m a with
  | nil => rfl
  | cons v vs ih =>
    rw [List.length_cons] at h
    rw [writeFrom_cons, ih _ (by omega), read_write_other _ _ (by omega)]

theorem read_writeFrom_inside (m : Memory) (vs : List Byte) (a : Nat) {i : Nat} (h : i < vs.length) :
    (m.writeFrom a vs).read (a + i) = some vs[i] := by
  induction vs generalizing m a i with
  | nil => exact absurd h (Nat.not_lt_zero i)
  | cons v vs ih =>
    cases i with
    | zero => rw [writeFrom_cons, read_writeFrom_outside _ _ (by omega)]; exact read_write_same m a v
    | succ i =>
      rw [writeFrom_cons, show a + (i + 1) = a + 1 + i by omega]
      exact ih _ _ (Nat.lt_of_succ_lt_succ h)

theorem read_writeFrom_zero (m : Memory) (vs : List Byte) {i : Nat} (h : i < vs.length) :
    (m.writeFrom 0 vs).read i = some vs[i] := by
  simpa using read_writeFrom_inside m vs 0 h

/-! ### The receiver at one byte -/

theorem storable_iff (r : Receiver) : r.storable = true ↔ r.autoInc = true ∧ r.addr < 4 := by
  simp [Receiver.storable]

theorem segment_of_storable {r : Receiver} (h : r.storable = true) (v : Byte) :
    r.segment v = { r with cells := r.cells.write r.addr v, addr := r.addr + 1 } := if_pos h

theorem byte_of_data {r : Receiver} (hFrame : r.frame = .data) (h : r.storable = true) (v : Byte) :
    r.byte v = { r with cells := r.cells.write r.addr v, addr := r.addr + 1 } := by
  rw [← segment_of_storable h]
  simp [Receiver.byte, hFrame, h]

/-- Every command byte is read as its command (30_encoding.md R60 to R64). -/
@[simp] theorem decodeCommand_encodeCommand (c : Command) : decodeCommand (encodeCommand c) = some c := by
  cases c with
  | data | addr | off => rfl
  | on bright => revert bright; decide

theorem byte_of_command {r : Receiver} (hFrame : r.frame = .command) (c : Command) :
    r.byte (encodeCommand c) = { r.command c with frame := frameAfter c } := by
  simp [Receiver.byte, hFrame]

/-- Only the address command is followed by data bytes (30_encoding.md R78). -/
theorem frameAfter_eq (c : Command) : frameAfter c = if c = .addr then .data else .closed := by
  cases c <;> rfl

/-! ### Acknowledged bytes -/

/-- The next `n` samples are all low: the receiver acknowledges the next `n` bytes (42_serial_driver.md R135). -/
def Bus.acksNext (b : Bus) (n : Nat) : Prop := b.answers n = List.replicate n false

theorem acksNext_succ (b : Bus) (n : Nat) : b.acksNext (n + 1) ↔ b.nextAck = false ∧ b.dropAck.acksNext n := by
  simp [Bus.acksNext, Bus.answers, List.replicate_succ]

theorem acksNext_one (b : Bus) : b.acksNext 1 ↔ b.nextAck = false := by
  simp [Bus.acksNext, Bus.answers]

@[simp] theorem acksNext_start (b : Bus) (n : Nat) : b.start.acksNext n ↔ b.acksNext n := by
  rw [Bus.acksNext, answers_start, Bus.acksNext]

@[simp] theorem acksNext_wrbyte (b : Bus) (v : Byte) (n : Nat) : (b.wrbyte v).acksNext n ↔ b.dropAck.acksNext n := by
  rw [Bus.acksNext, answers_wrbyte, Bus.acksNext]

theorem acksNext_mono {b : Bus} {m n : Nat} (h : b.acksNext n) (hLe : m ≤ n) : b.acksNext m := by
  rw [Bus.acksNext] at h ⊢
  rw [← answers_take b hLe, h, List.take_replicate, Nat.min_eq_left hLe]

/-- A frame uses up one answer for each of its bytes. -/
theorem acksNext_frame {b : Bus} {vs : List Byte} {n : Nat} (h : b.acksNext (vs.length + n)) :
    (b.frame vs).acksNext n := by
  rw [Bus.acksNext] at h ⊢
  rw [answers_frame, h, List.drop_replicate, Nat.add_sub_cancel_left]

/-! ### The receiver after an acknowledged byte write -/

theorem rcv_wrbyte {b : Bus} (hReader : b.rcv.reader = ⟨true, []⟩) (hAck : b.nextAck = false) (v : Byte) :
    (b.wrbyte v).rcv = b.rcv.byte v := by
  rw [Bus.wrbyte, hAck, rcv_byteEvents v (b := b.dropAck) hReader, dropAck_rcv]

theorem rcv_wrbyte_data {b : Bus} (hReader : b.rcv.reader = ⟨true, []⟩) (hFrame : b.rcv.frame = .data)
    (hStore : b.rcv.storable = true) (hAck : b.nextAck = false) (v : Byte) :
    (b.wrbyte v).rcv = { b.rcv with cells := b.rcv.cells.write b.rcv.addr v, addr := b.rcv.addr + 1 } := by
  rw [rcv_wrbyte hReader hAck, byte_of_data hFrame hStore]

theorem rcv_wrbyte_command {b : Bus} (hReader : b.rcv.reader = ⟨true, []⟩) (hFrame : b.rcv.frame = .command)
    (hAck : b.nextAck = false) (c : Command) :
    (b.wrbyte (encodeCommand c)).rcv = { b.rcv.command c with frame := frameAfter c } := by
  rw [rcv_wrbyte hReader hAck, byte_of_command hFrame]

/-- In a data frame on a byte boundary, with cells left for `n` more data bytes. -/
structure Receiver.TakesData (r : Receiver) (n : Nat) : Prop where
  reader : r.reader = ⟨true, []⟩
  frame : r.frame = .data
  autoInc : r.autoInc = true
  fits : r.addr + n ≤ 4

theorem Receiver.TakesData.storable {r : Receiver} {n : Nat} (h : r.TakesData (n + 1)) : r.storable = true :=
  (storable_iff r).mpr ⟨h.autoInc, Nat.lt_of_lt_of_le (Nat.lt_add_of_pos_right n.succ_pos) h.fits⟩

/-- Data bytes that all have a cell are stored one after another from the current address on. -/
theorem rcv_wrbytes_data (vs : List Byte) {b : Bus} (h : b.rcv.TakesData vs.length) (hAcks : b.acksNext vs.length) :
    (b.wrbytes vs).rcv
      = { b.rcv with cells := b.rcv.cells.writeFrom b.rcv.addr vs, addr := b.rcv.addr + vs.length } := by
  induction vs generalizing b with
  | nil => rfl
  | cons v vs ih =>
    obtain ⟨hAck, hRest⟩ := (acksNext_succ b vs.length).mp hAcks
    have hByte := rcv_wrbyte_data h.reader h.frame h.storable hAck v
    have hNext : (b.wrbyte v).rcv.TakesData vs.length := by
      rw [hByte]
      exact { h with fits := (Nat.succ_add_eq_add_succ _ _).trans_le h.fits }
    rw [wrbytes_cons, ih hNext ((acksNext_wrbyte b v _).mpr hRest), hByte, writeFrom_cons, List.length_cons,
      Nat.add_right_comm, Nat.add_assoc]

/-! ### The receiver after an acknowledged frame from an idle bus -/

/-- Outside a frame, its reader idle. -/
def Receiver.closeFrame (r : Receiver) : Receiver := { r with reader := Reader.idle, frame := .idle }

/-- The opening of a frame: a start, then a command byte that is acknowledged. -/
theorem rcv_open {b : Bus} (hIdle : b.isIdle) (hFrame : b.rcv.frame = .idle) (hAck : b.acksNext 1) (c : Command) :
    (b.start.wrbyte (encodeCommand c)).rcv
      = { b.rcv.command c with reader := ⟨true, []⟩, frame := frameAfter c } := by
  have hStart := rcv_start hIdle hFrame
  have hNext := (acksNext_one _).mp ((acksNext_start b 1).mpr hAck)
  rw [rcv_wrbyte_command (by rw [hStart]) (by rw [hStart]) hNext, hStart]
  cases c <;> rfl

theorem rcv_frame_command {b : Bus} (hIdle : b.isIdle) (hFrame : b.rcv.frame = .idle) (hAck : b.acksNext 1)
    {c : Command} (hc : c ≠ .addr) :
    (b.frame [encodeCommand c]).rcv = (b.rcv.command c).closeFrame := by
  have hOpen := rcv_open hIdle hFrame hAck c
  rw [Bus.frame, wrbytes_cons, wrbytes_nil, rcv_stop (wrbyte_clkOut _ _) (by rw [hOpen])
    (.inr (by rw [hOpen, frameAfter_eq, if_neg hc])), hOpen]
  rfl

/-- A data frame: the address command, then bytes for the cells from 0 on. -/
theorem rcv_frame_addr {b : Bus} {data : List Byte} (hIdle : b.isIdle) (hFrame : b.rcv.frame = .idle)
    (hMode : b.rcv.autoInc = true) (hFits : data.length ≤ 4) (hAcks : b.acksNext (data.length + 1)) :
    (b.frame (encodeCommand .addr :: data)).rcv
      = ({ b.rcv with cells := b.rcv.cells.writeFrom 0 data, addr := data.length } : Receiver).closeFrame := by
  have hOpen := rcv_open hIdle hFrame (acksNext_mono hAcks (by omega)) .addr
  have hRest : (b.start.wrbyte (encodeCommand .addr)).acksNext data.length :=
    (acksNext_wrbyte _ _ _).mpr ((acksNext_succ _ _).mp ((acksNext_start b _).mpr hAcks)).2
  have hTakes : (b.start.wrbyte (encodeCommand .addr)).rcv.TakesData data.length := by
    rw [hOpen]
    exact ⟨rfl, rfl, hMode, (Nat.zero_add _).trans_le hFits⟩
  have hData := rcv_wrbytes_data data hTakes hRest
  have hClk : (b.start.wrbytes (encodeCommand .addr :: data)).clkOut = .low := wrbytes_clkOut (List.cons_ne_nil _ _) _
  rw [wrbytes_cons] at hClk
  rw [Bus.frame, wrbytes_cons, rcv_stop hClk (by rw [hData, hOpen]) (.inl (by rw [hData, hOpen]; rfl)), hData, hOpen]
  simp [Receiver.command, Receiver.closeFrame]

/-- A fully acknowledged update: write mode, the bytes at the cells from 0 on, display on (20_memory.md R41, R44). -/
theorem rcv_update {b : Bus} {seg : List Byte} (hIdle : b.isIdle) (hFrame : b.rcv.frame = .idle)
    (hFits : seg.length ≤ 4) (hAcks : b.acksNext (seg.length + 3)) (bright : Brightness) :
    (b.update seg bright).rcv
      = ({ b.rcv with autoInc := true, cells := b.rcv.cells.writeFrom 0 seg, addr := seg.length
                      on := true, bright := bright } : Receiver).closeFrame := by
  have hFirst := rcv_frame_command hIdle hFrame (acksNext_mono hAcks (by omega)) (c := .data) nofun
  have hAcks2 : (b.frame [encodeCommand .data]).acksNext ((encodeCommand .addr :: seg).length + 1) :=
    acksNext_frame (acksNext_mono hAcks (by simp only [List.length_cons, List.length_nil]; omega))
  have hSecond := rcv_frame_addr (frame_isIdle _ _) (by rw [hFirst]; rfl) (by rw [hFirst]; rfl) hFits
    (acksNext_mono hAcks2 (Nat.le_succ _))
  have hThird := rcv_frame_command (frame_isIdle _ _) (by rw [hSecond]; rfl) (acksNext_frame hAcks2)
    (c := .on bright) nofun
  rw [update_frames, hThird, hSecond, hFirst]
  rfl

end Sys2Proof.Machine
end

section
/-! The statements about the byte order of the bus and the display's store (20_memory.md R41, R42, R44, R49). -/

namespace Sys2Proof.Machine

open Sys2Proof

/-- A bit time, its waits left out. -/
def bitEdges (bit : Bool) : List Event := [.c0, if bit then .d1 else .d0, .c1]

theorem bitEvents_filter (bit : Bool) : (bitEvents bit).filter (fun e => e ≠ .w) = bitEdges bit := by
  cases bit <;> rfl

theorem dataEvents_filter (v : Byte) : (dataEvents v).filter (fun e => e ≠ .w) = (bitsOf v).flatMap bitEdges := by
  simp only [dataEvents, List.filter_flatMap, bitEvents_filter]

/-- Settles O22, by the data phase of the byte's events: eight bit times of three line events each. -/
theorem byteBitsLowFirst : Obligations.ByteBitsLowFirst := by
  intro v s
  refine ⟨_, byteEvents v s.bus.nextAck, exec_wrbyte v s, wrbyte_wire s.bus v, ?_⟩
  rw [byteEvents, List.filter_append, dataEvents_filter]
  exact List.take_left' rfl

/-- Settles O27, by the receiver after a fully acknowledged update. -/
theorem updateReachesDisplay : Obligations.UpdateReachesDisplay := by
  intro form s t seg bright hForm hIdle hFrame hAcks hExec
  obtain ⟨hLength, hBus⟩ : seg.length = 4 ∧ t.bus = s.bus.update seg bright := by
    obtain ⟨rfl, rfl, rfl⟩ | ⟨g, rfl, rfl⟩ := hForm
    · obtain rfl := exec_next_unique hExec (exec_update_regs s)
      exact ⟨Vector.length_toList, rfl⟩
    · obtain rfl := exec_next_unique hExec (exec_update_explicit g bright s)
      exact ⟨Vector.length_toList, rfl⟩
  rw [hBus, rcv_update hIdle hFrame hLength.le (by rw [hLength]; exact hAcks)]
  refine ⟨fun i hi => ?_, fun a ha => read_writeFrom_outside _ _ (by omega), rfl, rfl, rfl⟩
  rw [List.getElem?_eq_getElem (by omega)]
  exact read_writeFrom_zero _ seg (by omega)

/-- Settles O28, by the receiver after an acknowledged data byte. -/
theorem byteWriteStoresAtAddress : Obligations.ByteWriteStoresAtAddress := by
  intro v s t hFrame hReader hStore hAck hExec
  obtain rfl := exec_next_unique hExec (exec_wrbyte v s)
  dsimp only
  rw [rcv_wrbyte_data hReader hFrame hStore hAck]
  exact ⟨read_write_same _ _ _, fun a ha => read_write_other _ _ ha, rfl⟩

/-- Settles O29, by the receiver after an acknowledged data frame. -/
theorem frameStoresDataBytes : Obligations.FrameStoresDataBytes := by
  intro data s t hIdle hFrame hMode hFits hAcks hExec
  obtain rfl := exec_next_unique hExec (exec_frame (encodeCommand .addr) data s)
  dsimp only
  rw [rcv_frame_addr hIdle hFrame hMode hFits hAcks]
  exact ⟨fun i hi => read_writeFrom_zero _ data hi, fun a ha => read_writeFrom_outside _ _ (by omega), rfl, rfl⟩

/-- Settles O30, by the receiver after a start, after an acknowledged command byte, and after a stop. -/
theorem framingStoresNothing : Obligations.FramingStoresNothing := by
  refine ⟨fun s t hIdle hFrame hExec => ?_, fun c s t hFrame hReader hAck hExec => ?_,
    fun s t hClk hReader hFrame hExec => ?_⟩
  · obtain rfl := exec_next_unique hExec (exec_start s)
    exact rcv_start hIdle hFrame
  · obtain rfl := exec_next_unique hExec (exec_wrbyte _ s)
    dsimp only
    rw [rcv_wrbyte_command hReader hFrame hAck]
    exact ⟨fun a => by rw [command_cells], frameAfter_eq c⟩
  · obtain rfl := exec_next_unique hExec (exec_stop s)
    exact rcv_stop hClk hReader hFrame

/-- The point's bit stands above the seven of the pattern, so OR and addition agree (30_encoding.md R65). -/
theorem encodeSegment_eq (dp : Bool) (pattern : BitVec 7) :
    encodeSegment dp pattern = BitVec.ofNat 8 (128 * dp.toNat + pattern.toNat) := by
  revert dp pattern; decide

/-- Settles O55, by whether the byte has a cell to go to; beyond the cells no data byte writes. -/
theorem segmentByteStored : Obligations.SegmentByteStored := by
  intro dp pattern s
  refine ⟨_, exec_segb dp pattern s, rfl, fun hMode hAddr => ?_, (segment_cells s.bus.rcv _).2.2⟩
  have hStep := segment_of_storable ((storable_iff s.bus.rcv).mpr ⟨hMode, hAddr⟩) (encodeSegment dp pattern)
  dsimp only [State.mapRcv]
  rw [hStep, ← encodeSegment_eq]
  exact ⟨rfl, read_write_same _ _ _, fun a ha => read_write_other _ _ ha⟩

/-- Settles O54, by the receiver's answer to each command. -/
theorem commandBytesAtReceiver : Obligations.CommandBytesAtReceiver := fun s bright =>
  ⟨exec_dataCmd s, exec_addrCmd s, exec_dispOn bright s, exec_dispOff s⟩

end Sys2Proof.Machine
end

section
/-! The decoder's fields of bytes: counted byte lists, little-endian numbers and the packed format word, each read back from
what the encoder writes and bounded whatever it is read from (30_encoding.md R74, R138, 10_state.md R18; log 4). -/

namespace Sys2Proof.Machine

open Sys2Proof

/-! ### Numbers of bytes -/

theorem fitsByte_iff (n : Nat) : fitsByte n = true ↔ n < 256 := decide_eq_true_iff

theorem fitsByte_toNat (b : Byte) : fitsByte b.toNat = true := (fitsByte_iff _).mpr b.isLt

theorem ofNat_toNat_of_lt {n : Nat} (h : n < 256) : (BitVec.ofNat 8 n).toNat = n := Nat.mod_eq_of_lt h

theorem natOfBytes_bytesOfNat {n v : Nat} (h : v < 256 ^ n) : natOfBytes (bytesOfNat n v) = v := by
  induction n generalizing v with
  | zero => exact (Nat.lt_one_iff.mp h).symm
  | succ n ih =>
    have hHigh : v / 256 < 256 ^ n := Nat.div_lt_of_lt_mul (by rwa [Nat.pow_succ'] at h)
    rw [bytesOfNat, natOfBytes, ih hHigh, BitVec.toNat_ofNat]
    exact Nat.mod_add_div v 256

theorem natOfBytes_lt (bs : List Byte) : natOfBytes bs < 256 ^ bs.length := by
  induction bs with
  | nil => exact Nat.one_pos
  | cons b bs ih =>
    have hLow : b.toNat < 256 := b.isLt
    rw [natOfBytes, List.length_cons, Nat.pow_succ']
    omega

/-! ### Byte lists -/

theorem takeBytes_append (xs tail : List Byte) : takeBytes xs.length (xs ++ tail) = some (xs, tail) := by
  simp [takeBytes]

theorem takeBytes_eq_some {n : Nat} {bs xs tail : List Byte} (h : takeBytes n bs = some (xs, tail)) :
    xs.length = n ∧ tail <:+ bs := by
  unfold takeBytes at h
  split at h
  · next hLe =>
    obtain ⟨rfl, rfl⟩ := Prod.mk.inj (Option.some.inj h)
    exact ⟨List.length_take_of_le hLe, List.drop_suffix n bs⟩
  · cases h

theorem takeCounted_append {xs : List Byte} (h : xs.length < 256) (tail : List Byte) :
    takeCounted (BitVec.ofNat 8 xs.length :: xs ++ tail) = some (xs, tail) := by
  rw [List.cons_append, takeCounted, ofNat_toNat_of_lt h, takeBytes_append]

theorem takeCounted_eq_some {bs xs tail : List Byte} (h : takeCounted bs = some (xs, tail)) :
    xs.length < 256 ∧ tail <:+ bs := by
  cases bs with
  | nil => cases h
  | cons n bs =>
    obtain ⟨hLength, hTail⟩ := takeBytes_eq_some h
    exact ⟨hLength.trans_lt n.isLt, hTail.trans (List.suffix_cons n bs)⟩

theorem takeFrame_append (first : Byte) {rest : List Byte} (h : rest.length < 256) (tail : List Byte) :
    takeFrame (BitVec.ofNat 8 rest.length :: first :: rest ++ tail) = some (first, rest, tail) := by
  simp only [List.cons_append, takeFrame, ofNat_toNat_of_lt h, takeBytes_append]

theorem takeFrame_eq_some {bs rest tail : List Byte} {first : Byte} (h : takeFrame bs = some (first, rest, tail)) :
    rest.length < 256 ∧ tail <:+ bs := by
  unfold takeFrame at h
  split at h
  · next k b0 bs =>
    split at h
    · next hTake =>
      obtain ⟨-, rfl, rfl⟩ := by simpa using h
      obtain ⟨hLength, hTail⟩ := takeBytes_eq_some hTake
      exact ⟨hLength.trans_lt k.isLt, hTail.trans ((List.suffix_cons b0 bs).trans (List.suffix_cons k _))⟩
    · cases h
  · cases h

/-! ### Explicit cells -/

theorem cellsFit_iff (cells : List Nat) : cellsFit cells = true ↔ cells.length < 256 ∧ ∀ c ∈ cells, c < 256 := by
  simp [cellsFit, fitsByte_iff]

theorem map_toNat_map_ofNat {cells : List Nat} (h : ∀ c ∈ cells, c < 256) :
    (cells.map (BitVec.ofNat 8)).map BitVec.toNat = cells := by
  rw [List.map_map]
  exact (List.map_congr_left fun c hc => ofNat_toNat_of_lt (h c hc)).trans (List.map_id _)

theorem takeCounted_encodeCells {cells : List Nat} (h : cells.length < 256) (tail : List Byte) :
    takeCounted (encodeCells cells ++ tail) = some (cells.map (BitVec.ofNat 8), tail) := by
  have hTake := takeCounted_append (xs := cells.map (BitVec.ofNat 8)) (by rwa [List.length_map]) tail
  rwa [List.length_map] at hTake

theorem cellsFit_map_toNat {xs : List Byte} (h : xs.length < 256) : cellsFit (xs.map BitVec.toNat) = true :=
  (cellsFit_iff _).mpr ⟨by rwa [List.length_map], List.forall_mem_map.mpr fun b _ => b.isLt⟩

/-! ### The format word (10_state.md R18) -/

theorem packs_iff (f : Fmt) : f.packs = true ↔ (∀ i, f.dp = some i → i < 4) ∧ f.shown < 8 := by
  cases hDp : f.dp <;> simp [Fmt.packs, hDp]

/-- `DP_EN` and `DP_IDX` as one field of three bits. -/
def pointField : Option Nat → Nat
  | none => 0
  | some i => i + 4

theorem packFmt_eq (f : Fmt) :
    packFmt f = f.bright.toNat + 8 * f.blank.toNat + 16 * pointField f.dp + 128 * f.shown := by
  cases hDp : f.dp with
  | none => simp only [packFmt, pointField, hDp]
  | some i => simp only [packFmt, pointField, hDp]; omega

theorem pointField_lt {dp : Option Nat} (h : ∀ i, dp = some i → i < 4) : pointField dp < 8 := by
  cases dp with
  | none => exact Nat.zero_lt_succ 7
  | some i => exact Nat.add_lt_add_right (h i rfl) 4

/-- The point is read back from its field: the upper bit says whether there is one. -/
theorem point_of_pointField {dp : Option Nat} (h : ∀ i, dp = some i → i < 4) :
    (if pointField dp / 4 % 2 = 1 then some (pointField dp % 4) else none) = dp := by
  cases dp with
  | none => rfl
  | some i =>
    have hi := h i rfl
    rw [pointField, if_pos (by omega), Nat.add_mod_right, Nat.mod_eq_of_lt hi]

theorem packFmt_lt {f : Fmt} (h : f.packs = true) : packFmt f < 1024 := by
  obtain ⟨hDp, hShown⟩ := (packs_iff f).mp h
  have hBright := Brightness.toNat_lt f.bright
  have hBlank := Bool.toNat_lt f.blank
  have hPoint := pointField_lt hDp
  rw [packFmt_eq]
  omega

/-- The fields of the format word do not overlap. -/
theorem unpackFmt_packFmt {f : Fmt} (h : f.packs = true) : unpackFmt (packFmt f) = f := by
  obtain ⟨hDp, hShown⟩ := (packs_iff f).mp h
  have hBright := Brightness.toNat_lt f.bright
  have hBlank := Bool.toNat_lt f.blank
  have hPoint := pointField_lt hDp
  have hWord := packFmt_eq f
  have hBrightField : packFmt f % 8 = f.bright.toNat := by omega
  have hBlankField : packFmt f / 8 % 2 = f.blank.toNat := by omega
  have hIndexField : packFmt f / 16 % 4 = pointField f.dp % 4 := by omega
  have hEnableField : packFmt f / 64 % 2 = pointField f.dp / 4 % 2 := by omega
  have hShownField : packFmt f / 128 % 8 = f.shown := by omega
  rw [unpackFmt, hBlankField, hIndexField, hEnableField, hShownField, point_of_pointField hDp,
    BitVec.eq_of_toNat_eq ((Brightness.toNat_ofNat _).trans hBrightField)]
  simp

theorem unpackFmt_packs (w : Nat) : (unpackFmt w).packs = true := by
  refine (packs_iff _).mpr ⟨fun i hi => ?_, Nat.mod_lt _ (by decide)⟩
  simp only [unpackFmt, Option.ite_none_right_eq_some, Option.some.injEq] at hi
  omega

end Sys2Proof.Machine
end

section
/-! The decoder of operation words by the selector's fields: what is reserved, and that ACQSTEP alone reads `acq`
(30_encoding.md R74, R75; log 5). -/

namespace Sys2Proof.Machine

open Sys2Proof

/-! ### The selector byte -/

theorem opsel_eq (b : Byte) : opsel b = b.toNat % 32 := BitVec.extractLsb'_toNat ..

theorem acqField_eq (b : Byte) : acqField b = b.toNat / 32 % 4 := by
  rw [acqField, BitVec.extractLsb'_toNat, Nat.shiftRight_eq_div_pow]

theorem getLsbD_seven (b : Byte) : b.getLsbD 7 = decide (128 ≤ b.toNat) := by
  revert b; decide

theorem decodeOp_of_high {b : Byte} (h : 128 ≤ b.toNat) (bs : List Byte) : decodeOp (b :: bs) = none := by
  simp [decodeOp, getLsbD_seven, h]

theorem decodeOp_of_reserved {b : Byte} (h : 0x14 ≤ opsel b) (bs : List Byte) : decodeOp (b :: bs) = none := by
  simp only [decodeOp]
  split
  · rfl
  · split
    case h_21 => rfl
    all_goals omega

theorem decodeOp_of_acqstep {b : Byte} (hHigh : b.toNat < 128) (hOp : opsel b = 0x0E) (bs : List Byte) :
    decodeOp (b :: bs) = decodeAcqstep (acqField b) bs := by
  simp only [decodeOp, getLsbD_seven, hOp]
  exact if_neg (by simp [hHigh])

/-- Only ACQSTEP reads the field `acq`: two selectors that agree on bit 7 and on another `OPSEL` decode alike. -/
theorem decodeOp_congr {b c : Byte} (hHigh : b.getLsbD 7 = c.getLsbD 7) (hOp : opsel b = opsel c)
    (hNotAcqstep : opsel c ≠ 0x0E) (bs : List Byte) : decodeOp (b :: bs) = decodeOp (c :: bs) := by
  simp only [decodeOp, hHigh, hOp]
  split
  · rfl
  · split
    case h_15 h => exact absurd h hNotAcqstep
    all_goals rfl

/-- Settles O4, by the value of the selector's fields. -/
theorem selectorFields : Obligations.SelectorFields := by
  refine ⟨fun b bs h => ?_, fun b bs hLow hNotAcqstep => ?_⟩
  · by_cases hHigh : 128 ≤ b.toNat
    · exact decodeOp_of_high hHigh bs
    obtain hReserved | hAcq | hBit := h
    · exact decodeOp_of_reserved (by rwa [opsel_eq]) bs
    · have hOp : opsel b = 0x0E := by rw [opsel_eq]; omega
      have hField : acqField b = 3 := by rw [acqField_eq]; omega
      rw [decode, decodeOp_of_acqstep (by omega) hOp, hField, decodeAcqstep]
      all_goals omega
    · exact absurd hBit hHigh
  · have hCleared : (BitVec.ofNat 8 (b.toNat % 32)).toNat = b.toNat % 32 := ofNat_toNat_of_lt (by omega)
    refine decodeOp_congr ?_ ?_ ?_ bs
    · rw [getLsbD_seven, getLsbD_seven, hCleared]; simp; omega
    · rw [opsel_eq, opsel_eq, hCleared, Nat.mod_mod]
    · rwa [opsel_eq, hCleared, Nat.mod_mod]

end Sys2Proof.Machine
end

section
/-! Decoding and encoding agree: what the encoder writes is read back, and what the decoder reads is well formed
(30_encoding.md R60 to R65, R74; log 4). -/

namespace Sys2Proof.Machine

open Sys2Proof

/-! ### Reading back what was written -/

theorem decode_encodeCommand (c : Command) (tail : List Byte) :
    decode .cmd (encodeCommand c :: tail) = some (c.instr, tail) := by
  rw [decode, decodeCommand_encodeCommand]

theorem decodeSegment_encodeSegment (dp : Bool) (pattern : BitVec 7) :
    decodeSegment (encodeSegment dp pattern) = .segb dp pattern := by
  revert dp pattern; decide

/-- A number of ten bits is the number of its two bytes, the upper one below 4. -/
theorem bytesOfNat_two {w : Nat} (h : w < 1024) :
    ∃ lo hi : Byte, bytesOfNat 2 w = [lo, hi] ∧ hi.toNat < 4 ∧ lo.toNat + 256 * hi.toNat = w := by
  refine ⟨_, _, rfl, ?_, ?_⟩ <;> simp only [BitVec.toNat_ofNat] <;> omega

theorem decodeMvconv_encode (raw : RawCode) (tail : List Byte) :
    decodeMvconv (bytesOfNat 2 raw.toNat ++ tail) = some (.mvconv raw, tail) := by
  obtain ⟨lo, hi, hBytes, hHigh, hCode⟩ := bytesOfNat_two raw.toNat_lt
  simp only [hBytes, List.cons_append, List.nil_append, decodeMvconv]
  rw [if_pos hHigh, hCode, BitVec.ofNat_toNat, BitVec.setWidth_eq]

theorem decodeExtract_encode {value width : Nat} (hValue : value < 2 ^ 32) (hWidth : width < 256) (tail : List Byte) :
    decodeExtract (bytesOfNat 4 value ++ [BitVec.ofNat 8 width] ++ tail) = some (.extract value width, tail) := by
  have hBytes : natOfBytes (bytesOfNat 4 value) = value := natOfBytes_bytesOfNat hValue
  simp only [bytesOfNat] at hBytes
  simp only [bytesOfNat, List.cons_append, List.nil_append, decodeExtract, hBytes, ofNat_toNat_of_lt hWidth]

theorem decodeRound_explicit {bs cells tail : List Byte} {shown : Byte}
    (h : takeCounted bs = some (cells, shown :: tail)) :
    decodeRound (2 :: bs) = some (.round (.explicit (cells.map BitVec.toNat) shown.toNat), tail) := by
  simp [decodeRound, h]

theorem decodeRound_encode {form : RoundForm} (h : (Instr.round form).wf = true) (tail : List Byte) :
    decodeRound (encodeRound form ++ tail) = some (.round form, tail) := by
  cases form with
  | regs => rfl
  | shown n =>
    have hShown : n < 256 := (fitsByte_iff n).mp h
    simp [encodeRound, decodeRound, Nat.mod_eq_of_lt hShown]
  | explicit cells shown =>
    obtain ⟨hCells, hShown⟩ := Bool.and_eq_true_iff.mp h
    obtain ⟨hLength, hFit⟩ := (cellsFit_iff cells).mp hCells
    rw [encodeRound, List.cons_append, List.append_assoc, List.singleton_append,
      decodeRound_explicit (takeCounted_encodeCells hLength _), map_toNat_map_ofNat hFit,
      ofNat_toNat_of_lt ((fitsByte_iff shown).mp hShown)]

theorem decodeCompose_encode {form : ComposeForm} (h : (Instr.compose form).wf = true) (tail : List Byte) :
    decodeCompose (encodeCompose form ++ tail) = some (.compose form, tail) := by
  cases form with
  | regs => rfl
  | explicit cells fmt =>
    obtain ⟨hCells, hPacks⟩ := Bool.and_eq_true_iff.mp h
    obtain ⟨hLength, hFit⟩ := (cellsFit_iff cells).mp hCells
    obtain ⟨lo, hi, hBytes, hHigh, hWord⟩ := bytesOfNat_two (packFmt_lt hPacks)
    rw [encodeCompose, hBytes, List.cons_append, List.append_assoc]
    simp only [List.cons_append, List.nil_append, decodeCompose, takeCounted_encodeCells hLength,
      map_toNat_map_ofNat hFit, if_pos hHigh, hWord, unpackFmt_packFmt hPacks]
    rfl

theorem decodeUpdate_encode (form : UpdateForm) (tail : List Byte) :
    decodeUpdate (encodeUpdate form ++ tail) = some (.update form, tail) := by
  cases form with
  | regs => rfl
  | explicit seg bright =>
    obtain ⟨⟨bytes⟩, hSize⟩ := seg
    match bytes, hSize with
    | [s0, s1, s2, s3], hSize =>
      have hBright := Brightness.toNat_lt bright
      have hByte : bright.toNat % 256 = bright.toNat := Nat.mod_eq_of_lt (by omega)
      simp [encodeUpdate, decodeUpdate, hByte, hBright]

theorem decodeFrame_encode (first : Byte) {rest : List Byte} (h : rest.length < 256) (tail : List Byte) :
    decodeFrame (BitVec.ofNat 8 rest.length :: first :: rest ++ tail) = some (.frame first rest, tail) := by
  rw [decodeFrame, takeFrame_append first h]

/-- Settles O2, by the constructor: each row's operands are read back by its own decoder. -/
theorem decodeEncodeAgree : Obligations.DecodeEncodeAgree := by
  intro i tail hWf
  cases i with
  | dataCmd => exact decode_encodeCommand .data tail
  | addrCmd => exact decode_encodeCommand .addr tail
  | dispOn bright => exact decode_encodeCommand (.on bright) tail
  | dispOff => exact decode_encodeCommand .off tail
  | segb dp pattern => exact congrArg (fun i => some (i, tail)) (decodeSegment_encodeSegment dp pattern)
  | mvconv raw => exact decodeMvconv_encode raw tail
  | extract value width =>
    obtain ⟨hValue, hWidth⟩ := Bool.and_eq_true_iff.mp hWf
    exact decodeExtract_encode (of_decide_eq_true hValue) ((fitsByte_iff width).mp hWidth) tail
  | round form => exact decodeRound_encode hWf tail
  | compose form => exact decodeCompose_encode hWf tail
  | frame first rest => exact decodeFrame_encode first ((fitsByte_iff _).mp hWf) tail
  | update form => exact decodeUpdate_encode form tail
  | reset | start | wrbyte _ | stop | adcstart | adcpoll | adcread | refresh | acqstepIdle | acqstepStarted
    | acqstepConverting | tickisr | tickpoll | indstart | indstep | pass => rfl

/-! ### What is read is well formed -/

/-- What an operand decoder may answer on the bytes `bs`: nothing, or a well-formed operation and what is left of the
bytes. -/
def ReadsOperands (bs : List Byte) (answer : Option (Instr × List Byte)) : Prop :=
  ∀ i tail, answer = some (i, tail) → i.wf = true ∧ i.format = .op ∧ tail <:+ bs

theorem readsOperands_none (bs : List Byte) : ReadsOperands bs none := nofun

theorem readsOperands_some {i : Instr} {bs tail : List Byte} (hWf : i.wf = true) (hFormat : i.format = .op)
    (hTail : tail <:+ bs) : ReadsOperands bs (some (i, tail)) := by
  rintro _ _ ⟨rfl, rfl⟩
  exact ⟨hWf, hFormat, hTail⟩

/-- An operation without operands leaves all the bytes. -/
theorem readsOperands_bare {i : Instr} (hWf : i.wf = true) (hFormat : i.format = .op) (bs : List Byte) :
    ReadsOperands bs (some (i, bs)) := readsOperands_some hWf hFormat List.suffix_rfl

theorem decodeMvconv_reads (bs : List Byte) : ReadsOperands bs (decodeMvconv bs) := by
  unfold decodeMvconv
  split
  · next lo hi tail =>
    split
    · exact readsOperands_some rfl rfl (List.suffix_append [lo, hi] tail)
    · exact readsOperands_none _
  · exact readsOperands_none _

theorem decodeExtract_reads (bs : List Byte) : ReadsOperands bs (decodeExtract bs) := by
  unfold decodeExtract
  split
  · next v0 v1 v2 v3 width tail =>
    have hValue : natOfBytes [v0, v1, v2, v3] < 2 ^ 32 := by simpa using natOfBytes_lt [v0, v1, v2, v3]
    exact readsOperands_some (Bool.and_eq_true_iff.mpr ⟨decide_eq_true hValue, fitsByte_toNat width⟩) rfl
      (List.suffix_append [v0, v1, v2, v3, width] tail)
  · exact readsOperands_none _

theorem decodeRound_reads (bs : List Byte) : ReadsOperands bs (decodeRound bs) := by
  unfold decodeRound
  split
  · exact readsOperands_none _
  · next form _ =>
    split
    · exact readsOperands_some rfl rfl (List.suffix_cons form _)
    · next n tail _ => exact readsOperands_some (fitsByte_toNat n) rfl (List.suffix_append [form, n] tail)
    · split
      · next cells shown tail hTake =>
        obtain ⟨hLength, hTail⟩ := takeCounted_eq_some hTake
        exact readsOperands_some (Bool.and_eq_true_iff.mpr ⟨cellsFit_map_toNat hLength, fitsByte_toNat shown⟩) rfl
          ((List.suffix_cons shown tail).trans (hTail.trans (List.suffix_cons form _)))
      · exact readsOperands_none _
    · exact readsOperands_none _

theorem decodeCompose_reads (bs : List Byte) : ReadsOperands bs (decodeCompose bs) := by
  unfold decodeCompose
  split
  · exact readsOperands_none _
  · next form _ =>
    split
    · exact readsOperands_some rfl rfl (List.suffix_cons form _)
    · split
      · next cells lo hi tail hTake =>
        obtain ⟨hLength, hTail⟩ := takeCounted_eq_some hTake
        split
        · exact readsOperands_some (Bool.and_eq_true_iff.mpr ⟨cellsFit_map_toNat hLength, unpackFmt_packs _⟩) rfl
            ((List.suffix_append [lo, hi] tail).trans (hTail.trans (List.suffix_cons form _)))
        · exact readsOperands_none _
      · exact readsOperands_none _
    · exact readsOperands_none _

theorem decodeUpdate_reads (bs : List Byte) : ReadsOperands bs (decodeUpdate bs) := by
  unfold decodeUpdate
  split
  · exact readsOperands_none _
  · next form _ =>
    split
    · exact readsOperands_some rfl rfl (List.suffix_cons form _)
    · next s0 s1 s2 s3 bright tail _ =>
      split
      · exact readsOperands_some rfl rfl (List.suffix_append [form, s0, s1, s2, s3, bright] tail)
      · exact readsOperands_none _
    · exact readsOperands_none _

theorem decodeWrbyte_reads (bs : List Byte) : ReadsOperands bs (decodeWrbyte bs) := by
  cases bs with
  | nil => exact readsOperands_none _
  | cons b tail => exact readsOperands_some rfl rfl (List.suffix_cons b tail)

theorem decodeFrame_reads (bs : List Byte) : ReadsOperands bs (decodeFrame bs) := by
  unfold decodeFrame
  split
  · next hTake =>
    obtain ⟨hLength, hTail⟩ := takeFrame_eq_some hTake
    exact readsOperands_some ((fitsByte_iff _).mpr hLength) rfl hTail
  · exact readsOperands_none _

theorem decodeAcqstep_reads (acq : Nat) (bs : List Byte) : ReadsOperands bs (decodeAcqstep acq bs) := by
  unfold decodeAcqstep
  split
  · exact readsOperands_bare rfl rfl bs
  · exact readsOperands_bare rfl rfl bs
  · exact readsOperands_bare rfl rfl bs
  · exact readsOperands_none bs

theorem decodeOp_reads (b : Byte) (bs : List Byte) : ReadsOperands bs (decodeOp (b :: bs)) := by
  simp only [decodeOp]
  split
  · exact readsOperands_none bs
  · split
    case h_2 => exact decodeMvconv_reads bs
    case h_3 => exact decodeExtract_reads bs
    case h_4 => exact decodeRound_reads bs
    case h_5 => exact decodeCompose_reads bs
    case h_7 => exact decodeWrbyte_reads bs
    case h_9 => exact decodeFrame_reads bs
    case h_10 => exact decodeUpdate_reads bs
    case h_15 => exact decodeAcqstep_reads _ bs
    case h_21 => exact readsOperands_none bs
    all_goals exact readsOperands_bare rfl rfl bs

theorem command_instr_wf (c : Command) : c.instr.wf = true ∧ c.instr.format = .cmd := by
  cases c <;> exact ⟨rfl, rfl⟩

/-- Settles O3, by the format: a command byte, a segment byte, or a selector and its operands. -/
theorem decodedIsWellFormed : Obligations.DecodedIsWellFormed := by
  intro f bs i tail hDecode
  cases bs with
  | nil => cases f <;> cases hDecode
  | cons b bs =>
    cases f with
    | cmd =>
      rw [decode] at hDecode
      split at hDecode
      · next c _ =>
        obtain ⟨rfl, rfl⟩ := Prod.mk.inj (Option.some.inj hDecode)
        exact ⟨(command_instr_wf c).1, (command_instr_wf c).2, [b], List.cons_ne_nil b [], rfl⟩
      · cases hDecode
    | segb =>
      cases hDecode
      exact ⟨rfl, rfl, [b], List.cons_ne_nil b [], rfl⟩
    | op =>
      obtain ⟨hWf, hFormat, used, rfl⟩ := decodeOp_reads b bs i tail hDecode
      exact ⟨hWf, hFormat, b :: used, List.cons_ne_nil b used, rfl⟩

end Sys2Proof.Machine
end

section
/-! The statements about single bytes and about the lines of a script (30_encoding.md R60 to R65, R71, R74 to R76). -/

namespace Sys2Proof.Machine

open Sys2Proof Sys2Proof.Claims

/-! ### Command bytes -/

/-- Settles O1, by running the decoder on each word. -/
theorem writtenWordsDecode : Obligations.WrittenWordsDecode := ⟨rfl, rfl, rfl, rfl, rfl, rfl, rfl, rfl, rfl⟩

/-- The mask 0xF8 leaves the three brightness bits free (30_encoding.md R63). -/
theorem and_mask_eq_iff (b : Byte) : b &&& 0xF8 = 0x88 ↔ 0x88 ≤ b.toNat ∧ b.toNat ≤ 0x8F := by
  revert b; decide

theorem decodeCommand_isSome_iff (b : Byte) : (decodeCommand b).isSome = true ↔
    b = 0x40 ∨ b = 0xC0 ∨ (0x88 ≤ b.toNat ∧ b.toNat ≤ 0x8F) ∨ b = 0x80 := by
  rw [← and_mask_eq_iff, decodeCommand]
  split
  · next hData => exact iff_of_true rfl (.inl hData)
  · next hData =>
    split
    · next hAddr => exact iff_of_true rfl (.inr (.inl hAddr))
    · next hAddr =>
      split
      · next hOn => exact iff_of_true rfl (.inr (.inr (.inl hOn)))
      · next hOn =>
        split
        · next hOff => exact iff_of_true rfl (.inr (.inr (.inr hOff)))
        · next hOff => exact iff_of_false Bool.false_ne_true (by tauto)

theorem decode_cmd (b : Byte) (tail : List Byte) :
    decode .cmd (b :: tail) = (decodeCommand b).map fun c => (c.instr, tail) := by
  cases h : decodeCommand b <;> simp [decode, h]

/-- Settles O5, by the command decoder's four tests. -/
theorem commandBytesDefined : Obligations.CommandBytesDefined := fun b => by
  rw [decode_cmd, Option.isSome_map, decodeCommand_isSome_iff]

/-- 0x88 has the three brightness bits clear, so OR and addition agree (30_encoding.md R71). -/
theorem encodeCommand_on (bright : Brightness) :
    encodeCommand (.on bright) = BitVec.ofNat 8 (0x88 + bright.toNat) := by
  revert bright; decide

/-- Settles O6, by the command's encoding and the last of the update's three frames. -/
theorem displayOnByte : Obligations.DisplayOnByte := by
  refine ⟨fun bright => ⟨rfl, encodeCommand_on bright, ?_⟩, fun s => ?_⟩
  · rw [← encodeCommand_on]
    exact decode_encodeCommand (.on bright) []
  · exact ⟨_, _, exec_update_regs s, update_frames s.bus s.seg.toList s.fmt.bright⟩

/-- Settles O35: each of the three words runs the arm the register names. -/
theorem armDecidedByRegister : Obligations.ArmDecidedByRegister := fun s =>
  ⟨(exec_acqstepIdle s).trans (exec_acqstepStarted s).symm,
    (exec_acqstepStarted s).trans (exec_acqstepConverting s).symm⟩

/-! ### Script lines -/

theorem runLine_word {f : Format} {bs : List Byte} {i : Instr} (h : fetchWord f bs = some i) (s : State) :
    runLine (.word f bs) s = exec i s := by simp [runLine, h]

theorem runLine_adcDone_of_busy {s : State} (h : s.adcBusy = true) (code : RawCode) :
    runLine (.adcDone code) s = .next (adcComplete code s) := if_pos h

theorem runLine_adcDone_of_not_busy {s : State} (h : s.adcBusy = false) (code : RawCode) :
    runLine (.adcDone code) s = .refused .adcNotEnabled := if_neg (by simp [h])

/-- Settles O7, by the script's head. -/
theorem stepRunsDecodedWord : Obligations.StepRunsDecodedWord := by
  intro s f bs tail i rest hScript hDecode
  have hFetch : fetchWord f bs = some i := by rw [fetchWord, hDecode]; rfl
  rw [step_of_script_cons hScript, runLine_word hFetch]
  rfl

/-- Settles O8: the placed script is the one word. -/
theorem stepRunsFetchedTableWord : Obligations.StepRunsFetchedTableWord := by
  intro s nbits w i hFetch
  rw [step_of_script_cons (s := s.withFetchWord nbits w) rfl, runLine_word hFetch]
  rfl

/-- Answers a script has fixed come first (30_encoding.md R76). -/
theorem answers_of_acks {levels rest : List Bool} {b : Bus} (h : b.acks = levels ++ rest) :
    b.answers levels.length = levels := by
  induction levels generalizing b with
  | nil => rfl
  | cons level levels ih =>
    have hNext : b.nextAck = level := by simp [Bus.nextAck, h]
    have hRest : b.dropAck.answers levels.length = levels := ih (by simp [h])
    rw [List.length_cons, Bus.answers, hNext, hRest]

/-- Settles O9, by the kind of the line and whether a conversion is in flight. -/
theorem outsideLinesStep : Obligations.OutsideLinesStep := by
  refine ⟨fun s code rest hScript hBusy => ?_, fun s code rest hScript hBusy => ?_, fun s levels rest hScript => ?_⟩
  · exact (step_of_script_cons hScript).trans (runLine_adcDone_of_busy (s := s.popLine rest) hBusy code)
  · exact (step_of_script_cons hScript).trans (runLine_adcDone_of_not_busy (s := s.popLine rest) hBusy code)
  · exact ⟨fixAcks levels (s.popLine rest), step_of_script_cons hScript, rfl, rfl, answers_of_acks rfl⟩

end Sys2Proof.Machine
end

section
/-! The trace of a byte, a frame and an update: its events, its waits, and what a reader of it sees (42_serial_driver.md
R130 to R141, 30_encoding.md R69; the spec's decisions D9, D10). -/

namespace Sys2Proof.Machine

open Sys2Proof Sys2Proof.Claims

/-! ### Events -/

theorem byteTrace_eq (v : Byte) (ack : Bool) : byteTrace v ack = byteEvents v ack := rfl

theorem frame_wire_eq (b : Bus) (vs : List Byte) :
    (b.frame vs).wire = b.wire ++ frameTrace vs (b.answers vs.length) := by
  simp [frame_wire, frameTrace, byteTrace_eq, startEvents, stopEvents]

/-! ### Waits -/

theorem waits_append (es fs : List Event) : waits (es ++ fs) = waits es + waits fs := List.count_append

theorem waits_bits (bits : List Bool) : waits (bits.flatMap bitEvents) = 3 * bits.length := by
  induction bits with
  | nil => rfl
  | cons bit bits ih =>
    have hBit : waits (bitEvents bit) = 3 := by cases bit <;> rfl
    rw [List.flatMap_cons, waits_append, hBit, ih, List.length_cons]
    omega

theorem waits_ackEvents (ack : Bool) : waits (ackEvents ack) = 4 + ack.toNat := by cases ack <;> rfl

theorem waits_byteTrace (v : Byte) (ack : Bool) : waits (byteTrace v ack) = 28 + ack.toNat := by
  rw [byteTrace_eq, byteEvents, waits_append, dataEvents, waits_bits, bitsOf_length, waits_ackEvents]
  omega

theorem waits_bytes (ps : List (Byte × Bool)) :
    waits (ps.flatMap fun p => byteTrace p.1 p.2) = 28 * ps.length + (ps.map Prod.snd).count true := by
  induction ps with
  | nil => rfl
  | cons p ps ih =>
    obtain ⟨v, ack⟩ := p
    rw [List.flatMap_cons, waits_append, waits_byteTrace, ih]
    cases ack <;> simp <;> omega

/-- `m` bytes of which `u` are not acknowledged take `28 m + u + 4` waits (42_serial_driver.md R138). -/
theorem waits_frameTrace {vs : List Byte} {acks : List Bool} (h : acks.length = vs.length) :
    waits (frameTrace vs acks) = 28 * vs.length + acks.count true + 4 := by
  have hBytes := waits_bytes (vs.zip acks)
  rw [List.map_snd_zip h.le, List.length_zip, h, Nat.min_self] at hBytes
  have hStart : waits [.d0, .w] = 1 := rfl
  have hStop : waits [.d0, .w, .c1, .w, .d1, .w] = 3 := rfl
  simp only [frameTrace, waits_append, hBytes, hStart, hStop]
  omega

/-! ### What a reader sees -/

theorem read_startEvents {r : Reading} (hClk : r.clk = .rel) (hDio : r.dio = .rel) :
    startEvents.foldl Reading.see r = ⟨.rel, .low, ⟨true, []⟩, r.items ++ [.start]⟩ := by
  obtain ⟨clk, dio, reader, items⟩ := r
  obtain rfl := hClk
  obtain rfl := hDio
  simp [startEvents, Reading.see, Reader.see, Event.clk, Event.dio]

/-- Entered with the clock low on a byte boundary, the stop's release of DIO is its one edge. -/
theorem read_stopEvents {r : Reading} (hClk : r.clk = .low) (hBits : r.reader.bits = []) :
    stopEvents.foldl Reading.see r = ⟨.rel, .rel, Reader.idle, r.items ++ [.stop]⟩ := by
  obtain ⟨clk, dio, ⟨inFrame, bits⟩, items⟩ := r
  obtain rfl := hClk
  obtain rfl := hBits
  cases inFrame <;> cases dio <;> simp [stopEvents, Reading.see, Reader.see, Event.clk, Event.dio, Reader.idle]

/-- The bytes of a frame, read from within it. -/
theorem read_bytes {ps : List (Byte × Bool)} (hPs : ps ≠ []) {r : Reading} (hReader : r.reader = ⟨true, []⟩) :
    ∃ dio, (ps.flatMap fun p => byteTrace p.1 p.2).foldl Reading.see r
      = ⟨.low, dio, ⟨true, []⟩, r.items ++ ps.flatMap fun p => .byte p.1 :: if p.2 then [.start] else []⟩ := by
  induction ps generalizing r with
  | nil => exact absurd rfl hPs
  | cons p ps ih =>
    rw [List.flatMap_cons, List.foldl_append, byteTrace_eq, read_byteEvents p.1 p.2 hReader]
    by_cases hLast : ps = []
    · subst hLast
      exact ⟨if p.2 then .low else .rel, by simp⟩
    · obtain ⟨dio, hRest⟩ := ih hLast (r := ⟨.low, _, ⟨true, []⟩, _⟩) rfl
      exact ⟨dio, by rw [hRest]; simp⟩

/-- A frame from an idle bus, read back from the trace (42_serial_driver.md R140). -/
theorem read_frame {b : Bus} (hLines : ReadsLines b) (hIdle : b.isIdle) {vs : List Byte} (hVs : vs ≠ []) :
    readWire (b.frame vs).wire
      = ⟨.rel, .rel, Reader.idle, (readWire b.wire).items ++ frameItems vs (b.answers vs.length)⟩ := by
  have hClk : (readWire b.wire).clk = .rel := hLines.1.trans hIdle.1
  have hDio : (readWire b.wire).dio = .rel := hLines.2.trans hIdle.2
  have hPairs : vs.zip (b.answers vs.length) ≠ [] := by
    rw [← List.length_pos_iff, List.length_zip, answers_length, Nat.min_self]
    exact List.length_pos_iff.mpr hVs
  obtain ⟨dio, hBytes⟩ := read_bytes hPairs (r := ⟨.rel, .low, ⟨true, []⟩, (readWire b.wire).items ++ [.start]⟩) rfl
  rw [frame_wire, readWire_append, readWire_append, readWire_append, read_startEvents hClk hDio]
  simp only [← byteTrace_eq]
  rw [hBytes, read_stopEvents rfl rfl]
  simp [frameItems]

/-- A frame from an idle bus leaves the lines where the reading of the trace has them. -/
theorem frame_readsLines {b : Bus} (hLines : ReadsLines b) (hIdle : b.isIdle) {vs : List Byte} (hVs : vs ≠ []) :
    ReadsLines (b.frame vs) := by
  rw [ReadsLines, read_frame hLines hIdle hVs, (frame_isIdle b vs).1, (frame_isIdle b vs).2]
  exact ⟨rfl, rfl⟩

/-! ### The three frames of an update -/

/-- The seven answers of an update, frame by frame. -/
theorem update_answers (b : Bus) {seg : List Byte} (hSeg : seg.length = 4) :
    (b.answers 7).take 1 = b.answers 1
      ∧ ((b.answers 7).drop 1).take 5 = (b.frame [0x40]).answers 5
      ∧ (b.answers 7).drop 6 = ((b.frame [0x40]).frame (0xC0 :: seg)).answers 1 := by
  have hFirst : (b.frame [0x40]).answers 6 = (b.answers 7).drop 1 := answers_frame b [0x40] 6
  have hSecond := answers_frame (b.frame [0x40]) (0xC0 :: seg) 1
  rw [List.length_cons, hSeg, hFirst, List.drop_drop] at hSecond
  exact ⟨answers_take b (by decide), hFirst ▸ answers_take _ (by decide), hSecond.symm⟩

theorem update_eq (b : Bus) (seg : List Byte) (bright : Brightness) :
    b.update seg bright
      = ((b.frame [0x40]).frame (0xC0 :: seg)).frame [BitVec.ofNat 8 (0x88 + bright.toNat)] := by
  rw [update_frames, encodeCommand_on]
  rfl

theorem update_wire (b : Bus) {seg : List Byte} (hSeg : seg.length = 4) (bright : Brightness) :
    (b.update seg bright).wire = b.wire ++ updateTrace seg bright (b.answers 7) := by
  obtain ⟨hFirst, hSecond, hThird⟩ := update_answers b hSeg
  rw [update_eq, updateTrace, hFirst, hSecond, hThird, frame_wire_eq, frame_wire_eq, frame_wire_eq]
  simp [hSeg]

theorem waits_updateTrace {seg : List Byte} (hSeg : seg.length = 4) (bright : Brightness) {acks : List Bool}
    (hAcks : acks.length = 7) : waits (updateTrace seg bright acks) = 208 + acks.count true := by
  have hCount : (acks.take 1).count true + ((acks.drop 1).take 5).count true + (acks.drop 6).count true
      = acks.count true := by
    have hDrop : acks.drop 6 = (acks.drop 1).drop 5 := by rw [List.drop_drop]
    rw [hDrop, Nat.add_assoc, ← List.count_append, List.take_append_drop, ← List.count_append, List.take_append_drop]
  rw [updateTrace, waits_append, waits_append, waits_frameTrace (by simp [hAcks]), waits_frameTrace (by simp [hAcks, hSeg]),
    waits_frameTrace (by simp [hAcks])]
  simp only [List.length_cons, List.length_nil, hSeg]
  omega

theorem update_items {b : Bus} (hLines : ReadsLines b) (hIdle : b.isIdle) {seg : List Byte} (hSeg : seg.length = 4)
    (bright : Brightness) :
    (readWire (b.update seg bright).wire).items
      = (readWire b.wire).items ++ updateItems seg bright (b.answers 7) := by
  obtain ⟨hFirst, hSecond, hThird⟩ := update_answers b hSeg
  have hLinesFirst := frame_readsLines hLines hIdle (List.cons_ne_nil 0x40 [])
  have hLinesSecond := frame_readsLines hLinesFirst (frame_isIdle _ _) (List.cons_ne_nil 0xC0 seg)
  rw [update_eq, updateItems, hFirst, hSecond, hThird, read_frame hLinesSecond (frame_isIdle _ _) (List.cons_ne_nil _ _),
    read_frame hLinesFirst (frame_isIdle _ _) (List.cons_ne_nil _ _), read_frame hLines hIdle (List.cons_ne_nil _ _)]
  simp [hSeg]

/-- What an update of four segment bytes does to the bus. -/
theorem update_trace (b : Bus) {seg : List Byte} (hSeg : seg.length = 4) (bright : Brightness) :
    (b.update seg bright).wire = b.wire ++ updateTrace seg bright (b.answers 7)
      ∧ waits (b.update seg bright).wire = waits b.wire + (208 + (b.answers 7).count true)
      ∧ (b.update seg bright).isIdle
      ∧ (ReadsLines b → b.isIdle → (readWire (b.update seg bright).wire).items
          = (readWire b.wire).items ++ updateItems seg bright (b.answers 7)) := by
  have hWire := update_wire b hSeg bright
  refine ⟨hWire, ?_, update_isIdle b seg bright, fun hLines hIdle => update_items hLines hIdle hSeg bright⟩
  rw [hWire, waits_append, waits_updateTrace hSeg bright (answers_length b 7)]

/-- Settles O26, by the operands of the form and the three frames they give. -/
theorem updateIsThreeFrames : Obligations.UpdateIsThreeFrames := by
  intro form s
  cases form with
  | regs =>
    exact ⟨_, s.seg.toList, s.fmt.bright, exec_update_regs s, rfl, fun _ => ⟨rfl, rfl⟩, nofun,
      update_trace s.bus Vector.length_toList s.fmt.bright⟩
  | explicit seg bright =>
    refine ⟨_, seg.toList, bright, exec_update_explicit seg bright s, rfl, nofun, fun g b hForm => ?_,
      update_trace s.bus Vector.length_toList bright⟩
    obtain ⟨rfl, rfl⟩ := UpdateForm.explicit.inj hForm
    exact ⟨rfl, rfl⟩

end Sys2Proof.Machine
end

section
/-! The number a cell array shows (40_digit_pipeline.md R95), by its last digit and by its first. -/

namespace Sys2Proof.Machine

open Sys2Proof

@[simp] theorem cellsValue_nil : cellsValue [] = 0 := rfl

@[simp] theorem cellsValue_concat (ds : List Digit) (d : Digit) :
    cellsValue (ds ++ [d]) = 10 * cellsValue ds + d.val := by
  simp [cellsValue]

theorem cellsValue_cons (d : Digit) (ds : List Digit) :
    cellsValue (d :: ds) = 10 ^ ds.length * d.val + cellsValue ds := by
  induction ds using List.reverseRecOn with
  | nil => simp [cellsValue]
  | append_singleton ds e ih =>
    rw [← List.cons_append, cellsValue_concat, cellsValue_concat, ih, List.length_append, List.length_singleton,
      pow_succ]
    ring

theorem cellsValue_lt (ds : List Digit) : cellsValue ds < 10 ^ ds.length := by
  induction ds using List.reverseRecOn with
  | nil => simp
  | append_singleton ds d ih =>
    rw [cellsValue_concat, List.length_append, List.length_singleton, pow_succ]
    omega

end Sys2Proof.Machine
end

section
/-! MVCONV and EXTRACT: the nearest millivolts, and the decimal digits of a value (40_digit_pipeline.md R90 to R92). -/

namespace Sys2Proof.Machine

open Sys2Proof

/-! ### The cell register -/

theorem putCells_toList {ds : List Digit} (h : ds.length = Config.width) (s : State) :
    (putCells ds s).cell.toList = ds := by
  rw [putCells_cell, if_pos h, cellsOf_toList h]

/-! ### Millivolts -/

/-- The quotient of R90 fits the 16 bits of SAMPLE. -/
theorem toMillivolts_toNat (raw : RawCode) : (toMillivolts raw).toNat = (5000 * raw.toNat + 512) / 1024 := by
  have hRaw := raw.toNat_lt
  have hFits : (5000 * raw.toNat + 512) / 1024 < 65536 := by omega
  exact (Millivolts.toNat_ofNat _).trans (Nat.mod_eq_of_lt hFits)

theorem toMillivolts_le (raw : RawCode) : (toMillivolts raw).toNat ≤ 4995 := by
  have hRaw := raw.toNat_lt
  rw [toMillivolts_toNat]
  omega

/-- Settles O11: SAMPLE is the quotient of `5000 raw + 512` by 1024. -/
theorem mvconvIsNearest : Obligations.MvconvIsNearest := by
  intro raw s
  refine ⟨toMillivolts raw, exec_mvconv raw s, ?_, ?_, toMillivolts_le raw⟩ <;> rw [toMillivolts_toNat] <;> omega

/-! ### Digits -/

theorem extractDigits_succ (value width : Nat) :
    extractDigits value (width + 1) = extractDigits (value / 10) width ++ [lastDigit value] := rfl

@[simp] theorem lastDigit_val (value : Nat) : (lastDigit value).val = value % 10 := rfl

/-- The closed form of R91. -/
theorem extractDigits_getElem (value width : Nat) {i : Nat} (h : i < (extractDigits value width).length) :
    (extractDigits value width)[i].val = value / 10 ^ (width - 1 - i) % 10 := by
  induction width generalizing value with
  | zero => simp at h
  | succ w ih =>
    rw [extractDigits_length] at h
    simp only [extractDigits_succ, List.getElem_append, extractDigits_length]
    split
    case isTrue hLeft =>
      have hExp : w + 1 - 1 - i = (w - 1 - i) + 1 := by omega
      rw [ih, Nat.div_div_eq_div_mul, hExp, pow_succ']
    case isFalse hLast =>
      have hExp : w + 1 - 1 - i = 0 := by omega
      rw [List.getElem_singleton, lastDigit_val, hExp, pow_zero, Nat.div_one]

/-- Reconstruction and truncation in one: the cells show the value's low `width` digits. -/
theorem cellsValue_extractDigits (value width : Nat) :
    cellsValue (extractDigits value width) = value % 10 ^ width := by
  induction width generalizing value with
  | zero => rw [pow_zero, Nat.mod_one]; rfl
  | succ w ih =>
    rw [extractDigits_succ, cellsValue_concat, ih, lastDigit_val, pow_succ', Nat.mod_mul, Nat.add_comm]

theorem extractDigits_mod (value width : Nat) :
    extractDigits value width = extractDigits (value % 10 ^ width) width := by
  induction width generalizing value with
  | zero => rfl
  | succ w ih =>
    have hDiv : value % 10 ^ (w + 1) / 10 = value / 10 % 10 ^ w := by
      rw [pow_succ', Nat.mod_mul_right_div_self]
    have hLast : lastDigit (value % 10 ^ (w + 1)) = lastDigit value :=
      Fin.ext (Nat.mod_mod_of_dvd value (dvd_pow_self 10 w.succ_ne_zero))
    rw [extractDigits_succ, extractDigits_succ, hDiv, ← ih, hLast]

/-- A value below `10^k` has nothing left after division by `10^k` or more. -/
theorem extractDigits_leading_zero {value width k : Nat} (hValue : value < 10 ^ k) {i : Nat}
    (h : i < (extractDigits value width).length) (hi : i < width - k) : (extractDigits value width)[i] = 0 := by
  have hPow : 10 ^ k ≤ 10 ^ (width - 1 - i) := Nat.pow_le_pow_right (by decide) (by omega)
  apply Fin.ext
  rw [extractDigits_getElem, Nat.div_eq_of_lt (hValue.trans_le hPow)]
  rfl

/-- Settles O12, by the closed form of the digits; the register takes them when there are N. -/
theorem extractClosedForm : Obligations.ExtractClosedForm := by
  intro value width s
  refine ⟨_, extractDigits value width, exec_extract value width s, rfl, extractDigits_length value width,
    fun i h => extractDigits_getElem value width h, fun hWidth => ?_, fun hWidth => ?_⟩
  · exact putCells_toList ((extractDigits_length value width).trans hWidth) s
  · rw [putCells_cell, extractDigits_length, if_neg hWidth]

/-- Settles O13: the cells show the value modulo `10^width`, they are those of that remainder, and a small value divides
to 0 in the leading cells. -/
theorem extractLaws : Obligations.ExtractLaws :=
  ⟨fun value width hValue => (cellsValue_extractDigits value width).trans (Nat.mod_eq_of_lt hValue),
    extractDigits_mod,
    fun _ _ _ _ hValue _ h hi => extractDigits_leading_zero hValue h hi⟩

end Sys2Proof.Machine
end

section
/-! ROUND: the pass from the right zeroes the last cell and carries at most once into each further one
(40_digit_pipeline.md R93 to R95), and the cells a REFRESH leaves (R97). -/

namespace Sys2Proof.Machine

open Sys2Proof

/-! ### The pass -/

@[simp] theorem roundPass_singleton (d : Digit) : roundPass [d] = (carryOfLast d, [0]) := rfl

/-- Left of the last cell: the cell takes the carry of the cells right of it. -/
theorem roundPass_cons (d : Digit) {ds : List Digit} (h : ds ≠ []) :
    roundPass (d :: ds)
      = (carryOfSum d (roundPass ds).1, addCarry d (roundPass ds).1 :: (roundPass ds).2) := by
  cases ds with
  | nil => exact absurd rfl h
  | cons e es => rfl

theorem roundPass_cons_concat (e : Digit) (ds : List Digit) (d : Digit) :
    roundPass (e :: ds ++ [d]) = (carryOfSum e (roundPass (ds ++ [d])).1,
      addCarry e (roundPass (ds ++ [d])).1 :: (roundPass (ds ++ [d])).2) :=
  roundPass_cons e (List.concat_ne_nil d ds)

/-- A digit, a carry in and the carry out: no more than 10 can come. -/
theorem addCarry_add_carryOfSum (d : Digit) (carryIn : Bool) :
    10 * (carryOfSum d carryIn).toNat + (addCarry d carryIn).val = d.val + carryIn.toNat := by
  have hDigit := d.isLt
  have hCarry := carryIn.toNat_le
  rw [carryOfSum_toNat, addCarry_val]
  split <;> omega

theorem addCarry_false (d : Digit) : addCarry d false = d := Fin.ext (Nat.mod_eq_of_lt d.isLt)

theorem carryOfSum_false (d : Digit) : carryOfSum d false = false :=
  decide_eq_false (Nat.not_lt.mpr (Nat.le_of_lt_succ d.isLt))

theorem roundPass_last_zero (ds : List Digit) (d : Digit) : ∃ es, (roundPass (ds ++ [d])).2 = es ++ [0] := by
  induction ds with
  | nil => exact ⟨[], rfl⟩
  | cons e ds ih =>
    obtain ⟨es, hEs⟩ := ih
    exact ⟨addCarry e (roundPass (ds ++ [d])).1 :: es, by rw [roundPass_cons_concat, hEs]; rfl⟩

/-- No carry starts from a last digit of 0 to 5, so none reaches the cells left of it (R95 item 1). -/
theorem roundPass_of_le_five (ds : List Digit) {d : Digit} (h : d.val ≤ 5) :
    roundPass (ds ++ [d]) = (false, ds ++ [0]) := by
  induction ds with
  | nil => rw [List.nil_append, roundPass_singleton, carryOfLast, decide_eq_false (Nat.not_lt.mpr h)]; rfl
  | cons e ds ih => rw [roundPass_cons_concat, ih, carryOfSum_false, addCarry_false]; rfl

/-- What the pass carries out and leaves behind is the value without its last digit, plus 10 if that exceeded 5. -/
theorem roundPass_value (ds : List Digit) (d : Digit) :
    10 ^ (ds.length + 1) * (roundPass (ds ++ [d])).1.toNat + cellsValue (roundPass (ds ++ [d])).2
      = 10 * cellsValue ds + if 5 < d.val then 10 else 0 := by
  induction ds with
  | nil =>
    rw [List.nil_append, roundPass_singleton, carryOfLast_toNat]
    split <;> rfl
  | cons e ds ih =>
    have hStep := addCarry_add_carryOfSum e (roundPass (ds ++ [d])).1
    rw [roundPass_cons_concat, cellsValue_cons, cellsValue_cons, roundPass_length, List.length_append,
      List.length_singleton, List.length_cons]
    calc _ = 10 ^ (ds.length + 1) * (10 * (carryOfSum e (roundPass (ds ++ [d])).1).toNat
              + (addCarry e (roundPass (ds ++ [d])).1).val) + cellsValue (roundPass (ds ++ [d])).2 := by ring
      _ = 10 ^ (ds.length + 1) * e.val + (10 ^ (ds.length + 1) * (roundPass (ds ++ [d])).1.toNat
              + cellsValue (roundPass (ds ++ [d])).2) := by rw [hStep]; ring
      _ = _ := by rw [ih]; ring

/-! ### Rounding -/

theorem roundDigits_of_lt {ds : List Digit} {shown : Nat} (h : shown < ds.length) :
    roundDigits ds shown = (roundPass ds).2 := if_pos h

theorem roundDigits_of_le {ds : List Digit} {shown : Nat} (h : ds.length ≤ shown) : roundDigits ds shown = ds :=
  if_neg (Nat.not_lt.mpr h)

theorem roundDigits_of_le_five (ds : List Digit) {d : Digit} {shown : Nat} (hShown : shown < ds.length + 1)
    (h : d.val ≤ 5) : roundDigits (ds ++ [d]) shown = ds ++ [0] := by
  rw [roundDigits_of_lt (by simpa using hShown), roundPass_of_le_five ds h]

theorem roundDigits_last_zero (ds : List Digit) (d : Digit) {shown : Nat} (h : shown < ds.length + 1) :
    ∃ es, es.length = ds.length ∧ roundDigits (ds ++ [d]) shown = es ++ [0] := by
  obtain ⟨es, hEs⟩ := roundPass_last_zero ds d
  have hLength := roundPass_length (ds ++ [d])
  rw [hEs] at hLength
  exact ⟨es, by simpa using hLength, by rw [roundDigits_of_lt (by simpa using h), hEs]⟩

/-- Rounding up exactly when the last digit exceeds 5, the carry out of the leftmost cell dropped (R95 item 2). -/
theorem cellsValue_roundDigits (ds : List Digit) (d : Digit) {shown : Nat} (h : shown < ds.length + 1) :
    cellsValue (roundDigits (ds ++ [d]) shown)
      = (10 * cellsValue ds + if 5 < d.val then 10 else 0) % 10 ^ (ds.length + 1) := by
  have hLt := cellsValue_lt (roundPass (ds ++ [d])).2
  rw [roundPass_length, List.length_append, List.length_singleton] at hLt
  rw [roundDigits_of_lt (by simpa using h), ← roundPass_value, Nat.mul_add_mod, Nat.mod_eq_of_lt hLt]

theorem roundDigits_idem (ds : List Digit) (shown : Nat) :
    roundDigits (roundDigits ds shown) shown = roundDigits ds shown := by
  by_cases hShown : shown < ds.length
  case neg => rw [roundDigits_of_le (Nat.not_lt.mp hShown), roundDigits_of_le (Nat.not_lt.mp hShown)]
  case pos =>
    obtain rfl | ⟨init, d, rfl⟩ := ds.eq_nil_or_concat'
    · exact absurd hShown (Nat.not_lt_zero shown)
    · have hInit : shown < init.length + 1 := by simpa using hShown
      obtain ⟨es, hLength, hRound⟩ := roundDigits_last_zero init d hInit
      rw [hRound, roundDigits_of_le_five es (hLength ▸ hInit) (Nat.zero_le 5)]

/-- Settles O16: a last digit of 0 to 5 carries nothing, and after one ROUND the last digit is 0. -/
theorem roundNonRoundingAndIdempotent : Obligations.RoundNonRoundingAndIdempotent :=
  ⟨fun ds _ _ hShown hDigit => roundDigits_of_le_five ds hShown hDigit, roundDigits_idem⟩

/-! ### On the registers -/

/-- The four cells as those left of the last and the last. -/
theorem cell_toList_concat (cell : Vector Digit Config.width) : cell.toList = cell.toList.take 3 ++ [cell[3]] := by
  have hLength : cell.toList.length = 3 + 1 := Vector.length_toList
  have hLast := List.take_concat_get' cell.toList 3 (by omega)
  rw [List.take_of_length_le hLength.le, Vector.getElem_toList] at hLast
  exact hLast.symm

theorem last_of_toList {cell : Vector Digit Config.width} {es : List Digit} {d : Digit} (h : cell.toList = es ++ [d]) :
    cell[3] = d :=
  List.singleton_inj.mp (List.append_inj_right' ((cell_toList_concat cell).symm.trans h) rfl)

theorem cellsOf_self (cell : Vector Digit Config.width) : cellsOf cell.toList = cell :=
  Vector.toList_inj.mp (cellsOf_toList Vector.length_toList)

theorem putCells_self (s : State) : putCells s.cell.toList s = { s with result := .cells s.cell.toList } := by
  rw [putCells, if_pos Vector.length_toList, cellsOf_self]

/-- Settles O14, by the pass over the four cells as three and the last. -/
theorem roundDropsOneDigit : Obligations.RoundDropsOneDigit := by
  intro shown s hShown
  have hCell := cell_toList_concat s.cell
  have hTake : (s.cell.toList.take 3).length = 3 := List.length_take_of_le (by simp [Config.width])
  generalize s.cell.toList.take 3 = init at hCell hTake
  have hPut : (putCells (roundDigits s.cell.toList shown) s).cell.toList = roundDigits s.cell.toList shown :=
    putCells_toList (by simp) s
  have hInit : shown < init.length + 1 := hTake ▸ hShown
  refine ⟨_, exec_round_shown shown s, by rw [hPut]; rfl, ?_, ?_⟩
  · obtain ⟨es, -, hRound⟩ := roundDigits_last_zero init s.cell[3] hInit
    exact last_of_toList (hPut.trans (hCell ▸ hRound))
  · rw [hPut, hCell, cellsValue_roundDigits init _ hInit, cellsValue_concat, hTake, Nat.add_sub_cancel]
    rfl

/-- Settles O15: with no operand FMT gives `shown`, and with four digits shown the cells go back to CELL as they are. -/
theorem roundForms : Obligations.RoundForms := by
  refine ⟨fun s => (exec_round_regs s).trans (exec_round_shown s.fmt.shown s).symm, fun shown s hShown => ?_⟩
  rw [exec_round_shown, roundDigits_of_le (by simpa using hShown), putCells_self]

theorem refreshCells_of_le (raw : RawCode) {fmt : Fmt} (h : 4 ≤ fmt.shown) :
    refreshCells raw fmt = extractDigits (toMillivolts raw).toNat Config.width :=
  roundDigits_of_le (by simpa using h)

/-- Settles O37: no rounding happens, and four digits hold the millivolts of any code. -/
theorem refreshDigitsReadBack : Obligations.RefreshDigitsReadBack := by
  intro s t hRefresh hShown
  obtain rfl := exec_next_unique hRefresh (exec_refresh s)
  have hLe := toMillivolts_le (adcRead s)
  rw [refresh_cell, refresh_sample, cellsOf_toList (refreshCells_length _ _), refreshCells_of_le _ hShown,
    cellsValue_extractDigits]
  exact ⟨Nat.mod_eq_of_lt (Nat.lt_of_le_of_lt hLe (by decide)), hLe⟩

end Sys2Proof.Machine
end

section
/-! The composer's bytes (41_display_composer.md R110 to R115): how the running `lead` bit reads as a fact about the
cells passed so far, the composer on an array cut in two, and from these the closed form of one cell's byte. -/

namespace Sys2Proof.Machine

open Sys2Proof Sys2Proof.Claims

/-! ### The leading-zero test -/

theorem leadNext_iff (lead : Bool) (d : Digit) : leadNext lead d = true ↔ lead = true ∧ d = 0 := by
  simp [leadNext]

/-- After some cells `lead` is still set exactly if it was set before them and all of them are 0 (R112). -/
theorem foldl_leadNext_iff (ds : List Digit) (lead : Bool) :
    ds.foldl leadNext lead = true ↔ lead = true ∧ ∀ e ∈ ds, e = 0 := by
  induction ds generalizing lead with
  | nil => simp
  | cons d ds ih => rw [List.foldl_cons, ih, leadNext_iff, List.forall_mem_cons, and_assoc]

theorem leadBlanks_foldl_iff (left : List Digit) (lead : Bool) (d : Digit) (i width : Nat) :
    leadBlanks (left.foldl leadNext lead) d i width = true
      ↔ lead = true ∧ (∀ e ∈ left ++ [d], e = 0) ∧ i ≠ width - 1 := by
  have hLead : leadNext (left.foldl leadNext lead) d = (left ++ [d]).foldl leadNext lead :=
    (List.foldl_concat ..).symm
  rw [leadBlanks, hLead, Bool.and_eq_true, foldl_leadNext_iff, decide_eq_true_iff, and_assoc]

/-! ### The bytes of an array -/

/-- The cells on the left reach those on the right through their number and `lead` alone. -/
theorem composeFrom_append (fmt : Fmt) (width i : Nat) (lead : Bool) (left right : List Digit) :
    composeFrom fmt width i lead (left ++ right)
      = composeFrom fmt width i lead left
        ++ composeFrom fmt width (i + left.length) (left.foldl leadNext lead) right := by
  induction left generalizing i lead with
  | nil => rfl
  | cons d left ih =>
    rw [List.cons_append, composeFrom, ih, composeFrom, List.cons_append, List.foldl_cons, List.length_cons,
      Nat.add_right_comm, Nat.add_assoc]

theorem composeCells_append (left right : List Digit) (fmt : Fmt) :
    composeCells (left ++ right) fmt
      = composeFrom fmt (left.length + right.length) 0 fmt.blank left
        ++ composeFrom fmt (left.length + right.length) left.length (left.foldl leadNext fmt.blank) right := by
  rw [composeCells, composeFrom_append, List.length_append, Nat.zero_add]

/-- The byte between `left` and `right` is the closed form's: `i ≠ width - 1` there says that `right` is not empty. -/
theorem composeCell_eq_composedByte (left right : List Digit) (d : Digit) (fmt : Fmt) :
    composeCell fmt (left.length + (d :: right).length) left.length (left.foldl leadNext fmt.blank) d
      = composedByte (left ++ d :: right) fmt left.length d := by
  have hTake : (left ++ d :: right).take (left.length + 1) = left ++ [d] := by
    rw [List.take_length_add_append]; rfl
  have hLast : left.length ≠ left.length + (d :: right).length - 1
      ↔ left.length + 1 ≠ (left ++ d :: right).length := by
    simp only [List.length_append, List.length_cons]; omega
  simp only [composeCell, composedByte, leadBlanks_foldl_iff, hTake, hLast, lookup]
  split
  · rfl
  · by_cases hPoint : fmt.dp = some left.length <;> simp [hPoint]

theorem composeCells_getElem? {ds : List Digit} {i : Nat} {d : Digit} (h : ds[i]? = some d) (fmt : Fmt) :
    (composeCells ds fmt)[i]? = some (composedByte ds fmt i d) := by
  obtain ⟨left, right, rfl, rfl⟩ : ∃ left right, ds = left ++ d :: right ∧ left.length = i := by
    obtain ⟨hLt, rfl⟩ := List.getElem?_eq_some_iff.mp h
    exact ⟨ds.take i, ds.drop (i + 1), by simp, by simp; omega⟩
  rw [composeCells_append, List.getElem?_append_right (by simp), composeFrom_length, Nat.sub_self, composeFrom,
    List.getElem?_cons_zero, composeCell_eq_composedByte]

theorem mem_composeCells {ds : List Digit} {fmt : Fmt} {b : Byte} (h : b ∈ composeCells ds fmt) :
    ∃ i d, b = composedByte ds fmt i d := by
  obtain ⟨i, hi, rfl⟩ := List.mem_iff_getElem.mp h
  have hDigit : i < ds.length := by rwa [composeCells_length] at hi
  exact ⟨i, ds[i], (List.getElem_eq_iff hi).mpr (composeCells_getElem? (List.getElem?_eq_getElem hDigit) fmt)⟩

/-! ### The register form -/

theorem putSegs_toList {bs : List Byte} (h : bs.length = Config.width) (s : State) : (putSegs bs s).seg.toList = bs := by
  rw [putSegs_seg, if_pos h, segsOf_toList h]

/-- Settles O18, by the array cut at cell `i`; the register form puts N bytes. -/
theorem composeFiveSteps : Obligations.ComposeFiveSteps := by
  refine ⟨fun ds fmt i d h => composeCells_getElem? h fmt, composeCells_length, fun s => ?_⟩
  exact ⟨_, exec_compose_regs s, rfl, putSegs_toList (by simp) s⟩

/-! ### Alphabet and scope -/

/-- An entry of the table without the point bit, which none has, is an entry of the table. -/
theorem lutTable_getD_and_mem (d : Digit) : Config.lutTable.getD d.val 0 &&& 0x7F ∈ Config.lutTable := by
  revert d; decide

/-- The point bit aside, a byte is blank or the entry of its digit. -/
theorem composedByte_and (ds : List Digit) (fmt : Fmt) (i : Nat) (d : Digit) :
    composedByte ds fmt i d &&& 0x7F = 0x00
      ∨ composedByte ds fmt i d &&& 0x7F = Config.lutTable.getD d.val 0 &&& 0x7F := by
  have hPoint (p : Byte) : (p ||| if fmt.dp = some i then 0x80 else 0x00) &&& 0x7F = p &&& 0x7F := by
    split
    · rw [BitVec.and_or_distrib_right]; exact BitVec.or_zero
    · simp
  unfold composedByte
  split
  case isTrue hBeyond => exact .inl rfl
  case isFalse hShown =>
    rw [hPoint]
    split
    case isTrue hBlank => exact .inl rfl
    case isFalse hDigit => exact .inr rfl

/-- Settles O19: the alphabet by the closed form of a byte, the scope because the bytes on the left of a cut see of the
right only how many cells it has. -/
theorem composeAlphabetAndScope : Obligations.ComposeAlphabetAndScope := by
  refine ⟨fun ds fmt b hb => ?_, fun left right₁ right₂ fmt hLength => ?_⟩
  · obtain ⟨i, d, rfl⟩ := mem_composeCells hb
    refine (composedByte_and ds fmt i d).imp_right fun hEntry => ?_
    rw [hEntry]
    exact lutTable_getD_and_mem d
  · have hLeft (right : List Digit) : (composeCells (left ++ right) fmt).take left.length
        = composeFrom fmt (left.length + right.length) 0 fmt.blank left := by
      rw [composeCells_append]; exact List.take_left' (composeFrom_length ..)
    rw [hLeft, hLeft, hLength]

end Sys2Proof.Machine
end

section
/-! The driver's operations one by one (42_serial_driver.md R128 to R140): what START, WRBYTE, STOP and FRAME put on the
trace, where they leave the lines, and what a reader sees of them. -/

namespace Sys2Proof.Machine

open Sys2Proof Sys2Proof.Claims

/-- Settles O25, by the reading of a frame, itself an induction over the bytes. -/
theorem frameReadsBack : Obligations.FrameReadsBack := by
  intro first rest s t hLines hIdle hExec
  obtain rfl := exec_next_unique hExec (exec_frame first rest s)
  have hRead := read_frame hLines hIdle (List.cons_ne_nil first rest)
  exact ⟨congrArg Reading.items hRead, congrArg Reading.reader hRead,
    frame_readsLines hLines hIdle (List.cons_ne_nil first rest), frame_isIdle s.bus _⟩

/-- A stop entered with the clock low, on a byte boundary. -/
theorem stop_items {b : Bus} (hLines : ReadsLines b) (hClk : b.clkOut = .low)
    (hBits : (readWire b.wire).reader.bits = []) :
    (readWire b.stop.wire).items = (readWire b.wire).items ++ [.stop] := by
  rw [stop_wire, readWire_append, read_stopEvents (hLines.1.trans hClk) hBits]

/-- Settles O21: the trace and the lines hold from any entry state, the reading from a low clock on a byte boundary. -/
theorem stopCondition : Obligations.StopCondition :=
  ⟨rfl, fun s => ⟨_, exec_stop s, rfl, stop_wire s.bus, stop_isIdle s.bus, stop_items⟩⟩

@[simp] theorem wrbyte_acks (b : Bus) (v : Byte) : (b.wrbyte v).acks = b.acks.tail := emitAll_acks b.dropAck _

/-- Settles O23, by the events of a byte write and where they leave the lines, the answer being either level. -/
theorem byteWriteTrace : Obligations.ByteWriteTrace := by
  intro v s
  refine ⟨_, exec_wrbyte v s, by dsimp only, ?_, wrbyte_clkOut s.bus v, wrbyte_dioOut s.bus v, wrbyte_acks s.bus v⟩
  rw [byteTrace_eq]
  exact wrbyte_wire s.bus v

/-- A frame adds its trace's waits, one answer being drawn for each byte. -/
theorem waits_frame (b : Bus) (vs : List Byte) :
    waits (b.frame vs).wire = waits b.wire + (28 * vs.length + (b.answers vs.length).count true + 4) := by
  rw [frame_wire_eq, waits_append, waits_frameTrace (answers_length b vs.length)]

/-- Settles O24, by the frame's trace and the count of its waits. -/
theorem frameTraceAndWaits : Obligations.FrameTraceAndWaits := fun first rest s =>
  ⟨_, exec_frame first rest s, rfl, frame_wire_eq s.bus (first :: rest), waits_frame s.bus (first :: rest),
    frame_isIdle s.bus (first :: rest)⟩

/-- A start from an idle bus is read as one. -/
theorem start_items {b : Bus} (hLines : ReadsLines b) (hIdle : b.isIdle) :
    (readWire b.start.wire).items = (readWire b.wire).items ++ [.start] := by
  rw [start_wire, readWire_append, read_startEvents (hLines.1.trans hIdle.1) (hLines.2.trans hIdle.2)]

/-- Settles O20: the trace and the lines hold from any entry state, the reading from an idle bus. -/
theorem startCondition : Obligations.StartCondition := fun s =>
  ⟨_, exec_start s, rfl, start_wire s.bus, start_clkOut s.bus, start_dioOut s.bus, start_items⟩

end Sys2Proof.Machine
end

section
/-! The acquisition peripheral's calls, the three arms of ACQSTEP, and REFRESH as its six steps
(43_acquisition_fsm.md R161 to R168). -/

namespace Sys2Proof.Machine

open Sys2Proof

/-! ### The peripheral -/

theorem adcRead_of_done {s : State} (h : s.adcDone = true) : adcRead s = s.adcResult := if_pos h

theorem adcReadDraws_of_done {s : State} (h : s.adcDone = true) : adcReadDraws s = s.envDraws := if_pos h

/-- Settles O38, by what each call answers; only a read before completion draws a free value. -/
theorem peripheralCalls : Obligations.PeripheralCalls :=
  ⟨exec_adcstart, exec_adcpoll, fun s =>
    ⟨_, _, exec_adcread s, rfl, fun hDone => ⟨adcRead_of_done hDone, adcReadDraws_of_done hDone⟩⟩⟩

/-! ### The arms -/

theorem intervalElapsed_iff (icnt : Count) : intervalElapsed icnt = true ↔ 10 ≤ icnt.toNat := decide_eq_true_iff

theorem acqIdleArm_of_lt {s : State} (h : s.icnt.toNat < 10) : acqIdleArm s = s :=
  if_neg (by rw [intervalElapsed_iff]; omega)

theorem acqIdleArm_of_le {s : State} (h : 10 ≤ s.icnt.toNat) : acqIdleArm s = { s with icnt := 0, acq := .started } :=
  if_pos ((intervalElapsed_iff s.icnt).mpr h)

theorem acqConvertingArm_of_not_done {s : State} (h : s.adcDone = false) : acqConvertingArm s = s :=
  if_neg (by simp [adcPoll, h])

theorem acqConvertingArm_of_done {s : State} (h : s.adcDone = true) :
    acqConvertingArm s = { refresh s with acq := .idle } := if_pos h

/-- Settles O32, by the arm Idle below the threshold and from it on. -/
theorem idleArm : Obligations.IdleArm := by
  intro s hAcq
  rw [exec_acqstepIdle, acqStep_idle hAcq]
  exact ⟨fun hLt => by rw [acqIdleArm_of_lt hLt], fun hLe => by rw [acqIdleArm_of_le hLe]⟩

/-- Settles O33: the arm Started is the composition of the two starts, and that sets the named fields. -/
theorem startedArm : Obligations.StartedArm := by
  refine ⟨rfl, fun s hAcq => ⟨_, _, exec_adcstart s, exec_indstart _, ?_⟩⟩
  rw [exec_acqstepStarted, acqStep_started hAcq]
  exact ⟨rfl, rfl⟩

/-- REFRESH of a completed conversion draws no free value, so it writes RAW, SAMPLE, CELL, SEG and the bus alone. -/
theorem refresh_frame_of_done {s : State} (h : s.adcDone = true) :
    refresh s = { s with raw := (refresh s).raw, sample := (refresh s).sample, cell := (refresh s).cell
                         seg := (refresh s).seg, bus := (refresh s).bus } := by
  conv_lhs => rw [refresh, adcReadDraws_of_done h]
  rfl

/-- Settles O34, by the arm Converting before and after completion. -/
theorem convertingArm : Obligations.ConvertingArm := by
  refine ⟨rfl, fun s hAcq => ?_⟩
  rw [exec_acqstepConverting, acqStep_converting hAcq]
  refine ⟨fun hNot => by rw [acqConvertingArm_of_not_done hNot], fun hDone => ⟨refresh s, exec_refresh s, ?_,
    (refresh_raw s).trans (adcRead_of_done hDone), refresh_frame_of_done hDone⟩⟩
  rw [acqConvertingArm_of_done hDone]

/-! ### The six steps of REFRESH -/

theorem putCells_of_length {ds : List Digit} (h : ds.length = Config.width) (s : State) :
    putCells ds s = { s with cell := cellsOf ds, result := .cells ds } := by
  rw [putCells, if_pos h]

theorem putSegs_of_length {bs : List Byte} (h : bs.length = Config.width) (s : State) :
    putSegs bs s = { s with seg := segsOf bs, result := .segs bs } := by
  rw [putSegs, if_pos h]

theorem exec_extract_width (value : Nat) (s : State) :
    exec (.extract value Config.width) s
      = .next { s with cell := cellsOf (extractDigits value Config.width)
                       result := .cells (extractDigits value Config.width) } := by
  rw [exec_extract, putCells_of_length (extractDigits_length value _)]

theorem exec_round_of_cells {s : State} {ds : List Digit} (h : s.cell.toList = ds) :
    exec (.round .regs) s
      = .next { s with cell := cellsOf (roundDigits ds s.fmt.shown)
                       result := .cells (roundDigits ds s.fmt.shown) } := by
  subst h
  rw [exec_round_regs, putCells_of_length (by simp)]

theorem exec_compose_of_cells {s : State} {ds : List Digit} (h : s.cell.toList = ds) :
    exec (.compose .regs) s
      = .next { s with seg := segsOf (composeCells ds s.fmt), result := .segs (composeCells ds s.fmt) } := by
  subst h
  rw [exec_compose_regs, putSegs_of_length (by simp)]

theorem exec_update_of_segs {s : State} {bs : List Byte} (h : s.seg.toList = bs) :
    exec (.update .regs) s = .next { s with bus := s.bus.update bs s.fmt.bright } := by
  rw [exec_update_regs, h]

/-- Settles O36, step by step: each register step reads back the array the one before left in its register. -/
theorem refreshIsSixSteps : Obligations.RefreshIsSixSteps := by
  refine ⟨rfl, fun s => ?_⟩
  have hExtract := extractDigits_length (toMillivolts (adcRead s)).toNat Config.width
  have hRound := refreshCells_length (adcRead s) s.fmt
  have hCompose := (composeCells_length (refreshCells (adcRead s) s.fmt) s.fmt).trans hRound
  refine ⟨_, _, _, exec_refresh s, exec_adcread s, rfl, rfl,
    fun hDone => ⟨adcRead_of_done hDone, adcReadDraws_of_done hDone⟩, _, _, _, _, _, exec_mvconv _ _,
    exec_extract_width _ _, exec_round_of_cells (cellsOf_toList hExtract),
    exec_compose_of_cells (cellsOf_toList hRound), exec_update_of_segs (segsOf_toList hCompose), rfl⟩

end Sys2Proof.Machine
end

section
/-! What a pass does to the acquisition state and to the bus (43_acquisition_fsm.md R160, R170;
44_scheduler_indicator.md R188): TICKPOLL and INDSTEP around one ACQSTEP. -/

namespace Sys2Proof.Machine

open Sys2Proof

/-! ### TICKPOLL and INDSTEP around ACQSTEP -/

/-- TICKPOLL clears the flag and counts it in both counters (44_scheduler_indicator.md R181). -/
theorem tickPoll_eq (s : State) :
    tickPoll s = { s with tickflag := false, icnt := s.icnt + (if s.tickflag then 1 else 0)
                          ecnt := s.ecnt + (if s.tickflag then 1 else 0) } := by
  unfold tickPoll
  split <;> simp [*]

@[simp] theorem tickPoll_acq (s : State) : (tickPoll s).acq = s.acq := by rw [tickPoll_eq]
@[simp] theorem tickPoll_icnt (s : State) : (tickPoll s).icnt = s.icnt + (if s.tickflag then 1 else 0) := by
  rw [tickPoll_eq]
@[simp] theorem tickPoll_adcDone (s : State) : (tickPoll s).adcDone = s.adcDone := by rw [tickPoll_eq]
@[simp] theorem tickPoll_adcResult (s : State) : (tickPoll s).adcResult = s.adcResult := by rw [tickPoll_eq]

/-- INDSTEP writes the indicator and the flash's duration alone (44_scheduler_indicator.md R186). -/
theorem indStep_frame (s : State) :
    indStep s = { s with ind := (indStep s).ind, duration := (indStep s).duration } := by
  obtain h | ⟨-, h⟩ | h := indStep_cases s <;> rw [h]

@[simp] theorem indStep_acq (s : State) : (indStep s).acq = s.acq := by rw [indStep_frame]
@[simp] theorem indStep_raw (s : State) : (indStep s).raw = s.raw := by rw [indStep_frame]
@[simp] theorem indStep_adcDone (s : State) : (indStep s).adcDone = s.adcDone := by rw [indStep_frame]
@[simp] theorem indStep_adcBusy (s : State) : (indStep s).adcBusy = s.adcBusy := by rw [indStep_frame]

/-! ### ACQ after one ACQSTEP -/

theorem acqStep_acq_of_idle {s : State} (h : s.acq = .idle) :
    (acqStep s).acq = if 10 ≤ s.icnt.toNat then .started else .idle := by
  rw [acqStep_idle h]
  split
  · next hLe => rw [acqIdleArm_of_le hLe]
  · next hLt => rw [acqIdleArm_of_lt (Nat.lt_of_not_le hLt), h]

theorem acqStep_acq_of_converting {s : State} (h : s.acq = .converting) :
    (acqStep s).acq = if s.adcDone then .idle else .converting := by
  rw [acqStep_converting h]
  split
  · next hDone => rw [acqConvertingArm_of_done hDone]
  · next hNot => rw [acqConvertingArm_of_not_done (Bool.eq_false_of_not_eq_true hNot), h]

/-- Settles O39, by the state ACQ is in: the pass's ACQSTEP runs that arm with the tick counted. -/
theorem passTransitionRing : Obligations.PassTransitionRing := by
  refine fun s => ⟨_, exec_pass s, fun hIdle => ?_, fun hStarted => ?_, fun hConverting => ?_⟩
  · rw [passStep, indStep_acq, acqStep_acq_of_idle (by rw [tickPoll_acq, hIdle]), tickPoll_icnt]
  · have hArm := acqStep_started (s := tickPoll s) (by rw [tickPoll_acq, hStarted])
    rw [passStep, indStep_acq, indStep_adcBusy, indStep_adcDone, hArm]
    exact ⟨rfl, rfl, rfl⟩
  · rw [passStep, indStep_acq, acqStep_acq_of_converting (by rw [tickPoll_acq, hConverting]), tickPoll_adcDone]

/-- An ACQSTEP that leaves the bus different has run REFRESH on a completed conversion (43_acquisition_fsm.md R167). -/
theorem acqStep_of_bus_ne {s : State} (h : (acqStep s).bus ≠ s.bus) :
    s.acq = .converting ∧ s.adcDone = true ∧ acqStep s = { refresh s with acq := .idle } := by
  obtain hStep | ⟨-, -, hStep⟩ | ⟨-, hStep⟩ | hRefresh := acqStep_cases s
  · exact absurd (congrArg State.bus hStep) h
  · exact absurd (congrArg State.bus hStep) h
  · exact absurd (congrArg State.bus hStep) h
  · exact hRefresh

/-- Settles O40: of the three steps of a pass only ACQSTEP can touch the bus, and it does so only by REFRESH. -/
theorem busActivityNeedsCompletion : Obligations.BusActivityNeedsCompletion := by
  intro s t hPass hBus
  obtain rfl := exec_next_unique hPass (exec_pass s)
  rw [passStep, indStep_bus, ← tickPoll_bus s] at hBus
  obtain ⟨hAcq, hDone, hStep⟩ := acqStep_of_bus_ne hBus
  rw [passStep, indStep_acq, indStep_raw, hStep]
  refine ⟨by rw [← tickPoll_acq s, hAcq], by rw [← tickPoll_adcDone s, hDone], rfl, ?_⟩
  rw [refresh_raw, adcRead_of_done hDone, tickPoll_adcResult]

end Sys2Proof.Machine
end

section
/-! Runs of several instructions that each complete. -/

namespace Sys2Proof.Machine

open Sys2Proof Sys2Proof.Claims

@[simp] theorem runInstrs_nil (s : State) : runInstrs [] s = .next s := rfl

theorem runInstrs_cons_of_next {i : Instr} {s t : State} (h : exec i s = .next t) (is : List Instr) :
    runInstrs (i :: is) s = runInstrs is t := by
  rw [runInstrs, List.foldl_cons, thenExec, h, runInstrs]

theorem runInstrs_append_of_next {is : List Instr} {s t : State} (h : runInstrs is s = .next t) (js : List Instr) :
    runInstrs (is ++ js) s = runInstrs js t := by
  rw [runInstrs] at h
  rw [runInstrs, List.foldl_append, h, runInstrs]

end Sys2Proof.Machine
end

section
/-! The tick path (44_scheduler_indicator.md R180 to R184): the interrupt that sets the flag, and which operations it
commutes with. -/

namespace Sys2Proof.Machine

open Sys2Proof Sys2Proof.Claims

/-- Settles O42: taking the tick interrupt is the whole of TICKISR. -/
theorem tickIsrSetsFlagOnly : Obligations.TickIsrSetsFlagOnly := ⟨rfl, exec_tickisr⟩

/-- A counter with the tick of a flag counted (R181, decision D12). -/
theorem count_add_flag_toNat (c : Count) (flag : Bool) :
    (c + (if flag then 1 else 0)).toNat = (c.toNat + (if flag then 1 else 0)) % 256 := by
  cases flag with
  | false => simpa using (Nat.mod_eq_of_lt c.toNat_lt).symm
  | true => exact c.toNat_add_one

/-- Settles O43, by the closed form of TICKPOLL and the counters' addition. -/
theorem tickPollCounts : Obligations.TickPollCounts := by
  refine fun s => ⟨tickPoll s, exec_tickpoll s, ?_⟩
  rw [tickPoll_eq]
  exact ⟨rfl, count_add_flag_toNat s.icnt s.tickflag, count_add_flag_toNat s.ecnt s.tickflag⟩

/-! ### Lost ticks -/

/-- A tick taken while the flag is set changes nothing (R183). -/
@[simp] theorem takeTick_takeTick (s : State) : takeTick (takeTick s) = takeTick s := rfl

theorem runInstrs_replicate_tickisr (k : Nat) (s : State) :
    runInstrs (List.replicate (k + 1) Instr.tickisr) s = .next (takeTick s) := by
  induction k generalizing s with
  | zero => exact exec_tickisr s
  | succ k ih => rw [List.replicate_succ, runInstrs_cons_of_next (exec_tickisr s), ih, takeTick_takeTick]

/-- Settles O44: any number of ticks leaves the state one tick leaves. -/
theorem lostTick : Obligations.LostTick := by
  intro k s
  rw [runInstrs_replicate_tickisr, exec_tickisr]

/-! ### What a tick commutes with -/

/-- TICKISR after an outcome sets the flag of its next state, and leaves a refusal as it is. -/
theorem thenExec_tickisr (o : Outcome) : thenExec o .tickisr = mapNext takeTick o := by
  cases o <;> rfl

theorem acqIdleArm_takeTick (s : State) : acqIdleArm (takeTick s) = takeTick (acqIdleArm s) := by
  rw [acqIdleArm, acqIdleArm, takeTick_icnt]
  split <;> rfl

theorem acqConvertingArm_takeTick (s : State) : acqConvertingArm (takeTick s) = takeTick (acqConvertingArm s) := by
  rw [acqConvertingArm, acqConvertingArm, adcPoll, adcPoll, takeTick_adcDone]
  split <;> rfl

theorem acqStep_takeTick (s : State) : acqStep (takeTick s) = takeTick (acqStep s) := by
  have hSame := takeTick_acq s
  cases hAcq : s.acq with
  | idle => rw [acqStep_idle (hSame.trans hAcq), acqStep_idle hAcq, acqIdleArm_takeTick]
  | started => rw [acqStep_started (hSame.trans hAcq), acqStep_started hAcq]; rfl
  | converting => rw [acqStep_converting (hSame.trans hAcq), acqStep_converting hAcq, acqConvertingArm_takeTick]

theorem indStep_takeTick (s : State) : indStep (takeTick s) = takeTick (indStep s) := by
  rw [indStep, indStep, takeTick_duration, takeTick_ecnt]
  split
  · split <;> rfl
  · rfl

/-- An operation on explicit cells refuses the same cells whatever it runs, so a change of what it runs is a change of
what it answers. -/
theorem withCells_mapNext {run run' : List Digit → Outcome} {f : State → State}
    (h : ∀ ds, run' ds = mapNext f (run ds)) (cells : List Nat) :
    withCells cells run' = mapNext f (withCells cells run) := by
  unfold withCells
  split
  · rfl
  · rfl
  · exact h _

/-- An instruction that does not touch TICKFLAG answers the same after a tick, but for the flag (R184). -/
theorem exec_takeTick {i : Instr} (hPoll : i ≠ .tickpoll) (hPass : i ≠ .pass) (hReset : i ≠ .reset) (s : State) :
    exec i (takeTick s) = mapNext takeTick (exec i s) := by
  cases i with
  | tickpoll => exact absurd rfl hPoll
  | pass => exact absurd rfl hPass
  | reset => exact absurd rfl hReset
  | round form =>
    cases form with
    | regs | shown _ => rfl
    | explicit cells shown =>
      rw [exec_round_explicit, exec_round_explicit]
      refine withCells_mapNext (fun ds => ?_) cells
      rfl
  | compose form =>
    cases form with
    | regs => rfl
    | explicit cells fmt =>
      rw [exec_compose_explicit, exec_compose_explicit]
      refine withCells_mapNext (fun ds => ?_) cells
      rfl
  | update form => cases form <;> rfl
  | acqstepIdle | acqstepStarted | acqstepConverting => exact congrArg Host.Outcome.next (acqStep_takeTick s)
  | indstep => exact congrArg Host.Outcome.next (indStep_takeTick s)
  | wrbyte b => rw [exec_wrbyte, exec_wrbyte, mapNext, takeTick_bus, takeTick, takeTick]
  | dataCmd | addrCmd | dispOn _ | dispOff | segb _ _ | mvconv _ | extract _ _ | start | stop | frame _ _
  | adcstart | adcpoll | adcread | refresh | tickisr | indstart => rfl

/-- Settles O45: a tick before an operation that does not touch the flag is a tick after it. -/
theorem tickCommutes : Obligations.TickCommutes := by
  intro i s hPoll hPass hReset
  rw [thenExec_tickisr, exec_tickisr, thenExec, exec_takeTick hPoll hPass hReset]

end Sys2Proof.Machine
end

section
/-! The indicator (44_scheduler_indicator.md R185 to R188): one step of it, how long a flash lasts, and its place in a
pass. -/

namespace Sys2Proof.Machine

open Sys2Proof Sys2Proof.Claims

/-- Settles O46: `FLASH_TICKS` is 5. -/
theorem flashStarts : Obligations.FlashStarts := ⟨rfl, exec_indstart⟩

/-! ### One step -/

theorem flashActive_iff (duration : Count) : flashActive duration = true ↔ duration ≠ 0 := decide_eq_true_iff

theorem flashOn_iff (ecnt duration : Count) : flashOn ecnt duration = true ↔ ecnt.toNat ≤ duration.toNat :=
  decide_eq_true_iff

theorem indStep_of_inactive {s : State} (h : s.duration = 0) : indStep s = s :=
  if_neg (by simp [flashActive_iff, h])

theorem indStep_of_le {s : State} (hActive : s.duration ≠ 0) (hLe : s.ecnt.toNat ≤ s.duration.toNat) :
    indStep s = { s with ind := true } := by
  rw [indStep, if_pos ((flashActive_iff _).mpr hActive), if_pos ((flashOn_iff _ _).mpr hLe)]

theorem indStep_of_lt {s : State} (hActive : s.duration ≠ 0) (hLt : s.duration.toNat < s.ecnt.toNat) :
    indStep s = { s with ind := false, duration := 0 } := by
  rw [indStep, if_pos ((flashActive_iff _).mpr hActive), if_neg (by rw [flashOn_iff]; omega)]

/-- Settles O47, by the three cases of INDSTEP. -/
theorem indicatorStep : Obligations.IndicatorStep := fun s =>
  ⟨fun hInactive => by rw [exec_indstep, indStep_of_inactive hInactive],
    fun hActive hLe => by rw [exec_indstep, indStep_of_le hActive hLe],
    fun hActive hLt => by rw [exec_indstep, indStep_of_lt hActive hLt]⟩

/-! ### A flash -/

/-- A flash `k` counted ticks after its start, each followed by a step of the indicator: lit up to the fifth tick and over
from the sixth on, where ECNT no longer matters. -/
structure FlashAt (k : Nat) (s : State) : Prop where
  ind : s.ind = decide (k ≤ 5)
  duration : s.duration = if k ≤ 5 then 5 else 0
  ecnt : k ≤ 5 → s.ecnt.toNat = k

theorem flashAt_start (s : State) : FlashAt 0 (indStep (indStart s)) := by
  rw [indStep_of_le (s := indStart s) (by simp) (by simp)]
  exact ⟨rfl, rfl, fun _ => rfl⟩

/-- A step of the indicator at the count of `k` ticks of a flash still lit before it. -/
theorem flashAt_indStep {k : Nat} {s : State} (hDuration : s.duration = 5) (hEcnt : s.ecnt.toNat = k) :
    FlashAt k (indStep s) := by
  have hActive : s.duration ≠ 0 := by rw [hDuration]; decide
  by_cases hLit : k ≤ 5
  · rw [indStep_of_le hActive (by rw [hDuration, hEcnt]; exact hLit)]
    exact ⟨by simp [hLit], by simp [hLit, hDuration], fun _ => hEcnt⟩
  · rw [indStep_of_lt hActive (by rw [hDuration, hEcnt]; exact Nat.lt_of_not_le hLit)]
    exact ⟨by simp [hLit], by simp [hLit], fun h => absurd h hLit⟩

/-- One more counted tick and step of the indicator. -/
theorem FlashAt.tick {k : Nat} {s : State} (h : FlashAt k s) : FlashAt (k + 1) (indStep (tickPoll (takeTick s))) := by
  have hPoll : tickPoll (takeTick s) = { s with tickflag := false, icnt := s.icnt + 1, ecnt := s.ecnt + 1 } := rfl
  rw [hPoll]
  by_cases hLit : k ≤ 5
  · refine flashAt_indStep (by simpa [hLit] using h.duration) ?_
    rw [Count.toNat_add_one, h.ecnt hLit]
    omega
  · have hOver : ¬k + 1 ≤ 5 := by omega
    rw [indStep_of_inactive (by simpa [hLit] using h.duration)]
    exact ⟨by simpa [hLit, hOver] using h.ind, by simpa [hLit, hOver] using h.duration, fun hLe => absurd hLe hOver⟩

theorem tickFlash_succ (k : Nat) : tickFlash (k + 1) = .tickisr :: .tickpoll :: .indstep :: tickFlash k := rfl

theorem FlashAt.run {j : Nat} {s : State} (h : FlashAt j s) (k : Nat) :
    ∃ t, runInstrs (tickFlash k) s = .next t ∧ FlashAt (j + k) t := by
  induction k generalizing j s with
  | zero => exact ⟨s, rfl, h⟩
  | succ k ih =>
    rw [tickFlash_succ, runInstrs_cons_of_next (exec_tickisr s), runInstrs_cons_of_next (exec_tickpoll _),
      runInstrs_cons_of_next (exec_indstep _), ← Nat.succ_add_eq_add_succ]
    exact ih h.tick

/-- Settles O48, by induction on the counted ticks of a flash. The flag before the start is of no account: the first
TICKISR sets it anyway. -/
theorem flashLasts : Obligations.FlashLasts := by
  intro k s _
  obtain ⟨t, hRun, hFlash⟩ := (flashAt_start s).run k
  rw [Nat.zero_add] at hFlash
  refine ⟨t, ?_, hFlash.ind, hFlash.duration⟩
  rw [List.cons_append, List.cons_append, List.nil_append, runInstrs_cons_of_next (exec_indstart s),
    runInstrs_cons_of_next (exec_indstep _), hRun]

/-! ### A pass -/

/-- Settles O49: the three steps complete, and their composition is the pass. -/
theorem passIsThreeSteps : Obligations.PassIsThreeSteps := by
  intro s
  rw [exec_pass, passStep, runInstrs_cons_of_next (exec_tickpoll s), runInstrs_cons_of_next (exec_acqstepIdle _),
    runInstrs_cons_of_next (exec_indstep _), runInstrs_nil]

end Sys2Proof.Machine
end

section
/-! Explicit cells of ROUND and COMPOSE (60_exceptions.md R205): which are refused and by what name, and that digits
run. With these refusals named, every instruction completes (R200). -/

namespace Sys2Proof.Machine

open Sys2Proof Sys2Proof.Claims

/-! ### What becomes of explicit cells -/

@[simp] theorem withCells_nil (run : List Digit → Outcome) : withCells [] run = .refused .widthZero := rfl

theorem withCells_of_above {cells : List Nat} (h : ∃ c ∈ cells, 9 < c) (run : List Digit → Outcome) :
    withCells cells run = .refused .cellAboveNine := by
  have hNone := digitsOf_above h
  cases cells with
  | nil => obtain ⟨c, hMem, -⟩ := h; exact absurd hMem List.not_mem_nil
  | cons c cs => simp only [withCells, hNone]

theorem withCells_of_digits {cells : List Nat} {ds : List Digit} (hCells : cells ≠ []) (h : digitsOf cells = some ds)
    (run : List Digit → Outcome) : withCells cells run = run ds := by
  cases cells with
  | nil => exact absurd rfl hCells
  | cons c cs => simp only [withCells, h]

theorem withCells_map_val {ds : List Digit} (h : ds ≠ []) (run : List Digit → Outcome) :
    withCells (ds.map Fin.val) run = run ds :=
  withCells_of_digits (List.map_eq_nil_iff.not.mpr h) (digitsOf_vals ds) run

/-- Settles O17: the check of the cells decides, and both operations put an array as long as the cells. -/
theorem explicitCells : Obligations.ExplicitCells := by
  intro cells shown fmt s
  rw [exec_round_explicit, exec_compose_explicit]
  refine ⟨?_, fun hAbove => ⟨withCells_of_above hAbove _, withCells_of_above hAbove _⟩, ?_⟩
  · rintro rfl
    exact ⟨withCells_nil _, withCells_nil _⟩
  · rintro ds hDs rfl
    rw [withCells_map_val hDs, withCells_map_val hDs, putCells, putSegs, roundDigits_length, composeCells_length]
    exact ⟨rfl, rfl⟩

/-! ### Completion -/

/-- Cells that R205 does not refuse are run. -/
theorem withCells_of_not_refused {cells : List Nat} (h : ¬(cells = [] ∨ ∃ c ∈ cells, 9 < c)) :
    ∃ ds, ∀ run, withCells cells run = run ds := by
  obtain ⟨hCells, hNone⟩ := not_or.mp h
  obtain ⟨ds, hDigits⟩ := digitsOf_digits fun c hMem => Nat.not_lt.mp fun hAbove => hNone ⟨c, hMem, hAbove⟩
  exact ⟨ds, withCells_of_digits hCells hDigits⟩

/-- Settles O56: only the check of explicit cells ever refuses, and these cells pass it. -/
theorem everyInstructionCompletes : Obligations.EveryInstructionCompletes := by
  intro i s hOperands
  cases i with
  | round form =>
    cases form with
    | regs | shown _ => exact ⟨_, rfl⟩
    | explicit cells shown =>
      obtain ⟨ds, hRun⟩ := withCells_of_not_refused hOperands
      exact ⟨_, (exec_round_explicit cells shown s).trans (hRun _)⟩
  | compose form =>
    cases form with
    | regs => exact ⟨_, rfl⟩
    | explicit cells fmt =>
      obtain ⟨ds, hRun⟩ := withCells_of_not_refused hOperands
      exact ⟨_, (exec_compose_explicit cells fmt s).trans (hRun _)⟩
  | update form => cases form <;> exact ⟨_, rfl⟩
  | dataCmd | addrCmd | dispOn _ | dispOff | segb _ _ | reset | mvconv _ | extract _ _ | start | wrbyte _ | stop
  | frame _ _ | adcstart | adcpoll | adcread | refresh | acqstepIdle | acqstepStarted | acqstepConverting | tickisr
  | tickpoll | indstart | indstep | pass => exact ⟨_, rfl⟩

end Sys2Proof.Machine
end

section
/-! The bus is never read (60_exceptions.md R203, 20_memory.md R46): an instruction run with another bus answers the
same outcome with another bus. -/

namespace Sys2Proof.Machine

open Sys2Proof Sys2Proof.Claims

/-- The state with another bus: other lines, trace, pending answers and display. -/
def State.withBus (b : Bus) (s : State) : State := { s with bus := b }

@[simp] theorem withBus_acq (b : Bus) (s : State) : (s.withBus b).acq = s.acq := rfl
@[simp] theorem withBus_icnt (b : Bus) (s : State) : (s.withBus b).icnt = s.icnt := rfl
@[simp] theorem withBus_ecnt (b : Bus) (s : State) : (s.withBus b).ecnt = s.ecnt := rfl
@[simp] theorem withBus_duration (b : Bus) (s : State) : (s.withBus b).duration = s.duration := rfl
@[simp] theorem withBus_adcDone (b : Bus) (s : State) : (s.withBus b).adcDone = s.adcDone := rfl

/-! ### The operations of a pass -/

theorem tickPoll_withBus (b : Bus) (s : State) : tickPoll (s.withBus b) = (tickPoll s).withBus b := by
  rw [tickPoll_eq, tickPoll_eq]
  rfl

theorem indStep_withBus (b : Bus) (s : State) : indStep (s.withBus b) = (indStep s).withBus b := by
  rw [indStep, indStep, withBus_duration, withBus_ecnt]
  split
  · split <;> rfl
  · rfl

theorem acqIdleArm_withBus (b : Bus) (s : State) : acqIdleArm (s.withBus b) = (acqIdleArm s).withBus b := by
  rw [acqIdleArm, acqIdleArm, withBus_icnt]
  split <;> rfl

/-- The arm of REFRESH alone puts something on the bus, and that depends on what is there. -/
theorem acqConvertingArm_withBus (b : Bus) (s : State) :
    ∃ c, acqConvertingArm (s.withBus b) = (acqConvertingArm s).withBus c := by
  rw [acqConvertingArm, acqConvertingArm, adcPoll, adcPoll, withBus_adcDone]
  split <;> exact ⟨_, rfl⟩

theorem acqStep_withBus (b : Bus) (s : State) : ∃ c, acqStep (s.withBus b) = (acqStep s).withBus c := by
  have hSame := withBus_acq b s
  cases hAcq : s.acq with
  | idle => exact ⟨b, by rw [acqStep_idle (hSame.trans hAcq), acqStep_idle hAcq, acqIdleArm_withBus]⟩
  | started => exact ⟨b, by rw [acqStep_started (hSame.trans hAcq), acqStep_started hAcq]; rfl⟩
  | converting =>
    rw [acqStep_converting (hSame.trans hAcq), acqStep_converting hAcq]
    exact acqConvertingArm_withBus b s

theorem passStep_withBus (b : Bus) (s : State) : ∃ c, passStep (s.withBus b) = (passStep s).withBus c := by
  obtain ⟨c, hAcq⟩ := acqStep_withBus b (tickPoll s)
  exact ⟨c, by rw [passStep, tickPoll_withBus, hAcq, indStep_withBus, passStep]⟩

/-! ### Every instruction -/

/-- With another bus an instruction answers what it answers without, its next state on some bus. -/
theorem exec_withBus (i : Instr) (b : Bus) (s : State) :
    ∃ c, exec i (s.withBus b) = mapNext (State.withBus c) (exec i s) := by
  cases i with
  | round form =>
    cases form with
    | regs | shown _ => exact ⟨b, rfl⟩
    | explicit cells shown =>
      rw [exec_round_explicit, exec_round_explicit]
      refine ⟨b, withCells_mapNext (fun ds => ?_) cells⟩
      rfl
  | compose form =>
    cases form with
    | regs => exact ⟨b, rfl⟩
    | explicit cells fmt =>
      rw [exec_compose_explicit, exec_compose_explicit]
      refine ⟨b, withCells_mapNext (fun ds => ?_) cells⟩
      rfl
  | update form => cases form <;> exact ⟨_, rfl⟩
  | acqstepIdle | acqstepStarted | acqstepConverting =>
    exact (acqStep_withBus b s).imp fun _ => congrArg Host.Outcome.next
  | tickpoll => exact ⟨b, congrArg Host.Outcome.next (tickPoll_withBus b s)⟩
  | indstep => exact ⟨b, congrArg Host.Outcome.next (indStep_withBus b s)⟩
  | pass => exact (passStep_withBus b s).imp fun _ => congrArg Host.Outcome.next
  | dataCmd | addrCmd | dispOn _ | dispOff | segb _ _ | reset | mvconv _ | extract _ _ | start | wrbyte _ | stop
  | frame _ _ | adcstart | adcpoll | adcread | refresh | tickisr | indstart => exact ⟨_, rfl⟩

/-- Settles O31, by the outcome of the first run: the second's is that one on another bus. No outcome is a
fault (R200). -/
theorem busNeverRead : Obligations.BusNeverRead := by
  intro i s b
  obtain ⟨c, hOther⟩ := exec_withBus i b s
  cases hExec : exec i s with
  | next t => exact .inl ⟨t, t.withBus c, rfl, by rw [hExec] at hOther; exact hOther, rfl⟩
  | fault r => exact nomatch r
  | refused r => exact .inr ⟨r, rfl, by rw [hExec] at hOther; exact hOther⟩

end Sys2Proof.Machine
end

section
/-! A conversion that never completes (60_exceptions.md R204, 43_acquisition_fsm.md R169): ticks and passes go on, and
ACQSTEP does nothing in them. -/

namespace Sys2Proof.Machine

open Sys2Proof Sys2Proof.Claims

/-- `t` differs from `s` at most in TICKFLAG, the two counters and the indicator. -/
def OnlyTicks (s t : State) : Prop :=
  t = { s with tickflag := t.tickflag, icnt := t.icnt, ecnt := t.ecnt, duration := t.duration, ind := t.ind }

theorem OnlyTicks.refl (s : State) : OnlyTicks s s := rfl

theorem OnlyTicks.trans {s t u : State} (h : OnlyTicks s t) (k : OnlyTicks t u) : OnlyTicks s u := by
  rw [OnlyTicks] at h k ⊢
  rw [k, h]

theorem OnlyTicks.acq {s t : State} (h : OnlyTicks s t) : t.acq = s.acq := by
  rw [OnlyTicks] at h
  rw [h]

theorem OnlyTicks.adcDone {s t : State} (h : OnlyTicks s t) : t.adcDone = s.adcDone := by
  rw [OnlyTicks] at h
  rw [h]

theorem onlyTicks_takeTick (s : State) : OnlyTicks s (takeTick s) := rfl

theorem onlyTicks_tickPoll (s : State) : OnlyTicks s (tickPoll s) := by rw [OnlyTicks, tickPoll_eq]

theorem onlyTicks_indStep (s : State) : OnlyTicks s (indStep s) := by rw [OnlyTicks, indStep_frame]

/-- While the conversion in flight is not complete a pass is TICKPOLL and INDSTEP. -/
theorem passStep_of_not_done {s : State} (hAcq : s.acq = .converting) (hDone : s.adcDone = false) :
    passStep s = indStep (tickPoll s) := by
  rw [passStep, acqStep_converting ((tickPoll_acq s).trans hAcq),
    acqConvertingArm_of_not_done ((tickPoll_adcDone s).trans hDone)]

theorem onlyTicks_exec {i : Instr} {s : State} (hInstr : i = .pass ∨ i = .tickisr) (hAcq : s.acq = .converting)
    (hDone : s.adcDone = false) : ∃ t, exec i s = .next t ∧ OnlyTicks s t := by
  obtain rfl | rfl := hInstr
  · refine ⟨_, exec_pass s, ?_⟩
    rw [passStep_of_not_done hAcq hDone]
    exact (onlyTicks_tickPoll s).trans (onlyTicks_indStep _)
  · exact ⟨_, exec_tickisr s, onlyTicks_takeTick s⟩

/-- Settles O41, by induction on the instructions: each leaves the conversion incomplete, so the rest runs the
same way. -/
theorem stuckConversionStalls : Obligations.StuckConversionStalls := by
  intro is s hInstrs hAcq hDone
  induction is generalizing s with
  | nil => exact ⟨s, runInstrs_nil s, .refl s⟩
  | cons i is ih =>
    obtain ⟨hInstr, hRest⟩ := List.forall_mem_cons.mp hInstrs
    obtain ⟨t, hExec, hStep⟩ := onlyTicks_exec hInstr hAcq hDone
    obtain ⟨u, hRun, hFrame⟩ := ih t hRest (hStep.acq.trans hAcq) (hStep.adcDone.trans hDone)
    exact ⟨u, (runInstrs_cons_of_next hExec is).trans hRun, hStep.trans hFrame⟩

end Sys2Proof.Machine
end

section
/-! From reset to the first conversion (70_reset_and_hazards.md R232): the machine waits in Idle, each round of a tick and
a pass counting one tick, and the round that counts the tenth enters Started (43_acquisition_fsm.md R161). -/

namespace Sys2Proof.Machine

open Sys2Proof Sys2Proof.Claims

/-- The state with `k` more ticks in both counters (44_scheduler_indicator.md R181, decision D12). -/
def countTicks (k : Nat) (s : State) : State :=
  { s with icnt := s.icnt + BitVec.ofNat Config.cntBits k, ecnt := s.ecnt + BitVec.ofNat Config.cntBits k }

theorem countTicks_countTicks (j k : Nat) (s : State) : countTicks k (countTicks j s) = countTicks (j + k) s := by
  simp [countTicks, BitVec.ofNat_add, BitVec.add_assoc]

theorem countTicks_icnt_toNat {k : Nat} {s : State} (h : s.icnt.toNat + k < 256) :
    (countTicks k s).icnt.toNat = s.icnt.toNat + k := by
  have hCount : (BitVec.ofNat Config.cntBits k).toNat = k := (Count.toNat_ofNat k).trans (Nat.mod_eq_of_lt (by omega))
  rw [countTicks, BitVec.toNat_add_of_lt (by rwa [hCount]), hCount]

theorem tickPoll_takeTick {s : State} (hFlag : s.tickflag = false) : tickPoll (takeTick s) = countTicks 1 s := by
  rw [tickPoll_eq, countTicks, hFlag]
  rfl

@[simp] theorem acqIdleArm_duration (s : State) : (acqIdleArm s).duration = s.duration := by
  unfold acqIdleArm
  split <;> rfl

/-- In Idle with no flash active, the pass after a tick counts it and runs the arm Idle. -/
theorem passStep_takeTick_of_idle {s : State} (hIdle : s.acq = .idle) (hFlag : s.tickflag = false)
    (hInactive : s.duration = 0) : passStep (takeTick s) = acqIdleArm (countTicks 1 s) := by
  rw [passStep, tickPoll_takeTick hFlag, acqStep_idle (s := countTicks 1 s) hIdle]
  exact indStep_of_inactive ((acqIdleArm_duration _).trans hInactive)

theorem tickPass_succ (k : Nat) : tickPass (k + 1) = .tickisr :: .pass :: tickPass k := rfl

theorem runInstrs_tickPass_succ (k : Nat) (s : State) :
    runInstrs (tickPass (k + 1)) s = runInstrs (tickPass k) (passStep (takeTick s)) := by
  rw [tickPass_succ, runInstrs_cons_of_next (exec_tickisr s), runInstrs_cons_of_next (exec_pass _)]

/-- As long as the rounds before the last leave ICNT below 10, only the last can leave Idle: the run is the ticks counted
and then one arm Idle. -/
theorem runInstrs_tickPass_of_idle {k : Nat} {s : State} (hIdle : s.acq = .idle) (hFlag : s.tickflag = false)
    (hInactive : s.duration = 0) (hBelow : s.icnt.toNat + k < 10) :
    runInstrs (tickPass (k + 1)) s = .next (acqIdleArm (countTicks (k + 1) s)) := by
  rw [runInstrs_tickPass_succ, passStep_takeTick_of_idle hIdle hFlag hInactive]
  induction k generalizing s with
  | zero => rfl
  | succ k ih =>
    have hIcnt : (countTicks 1 s).icnt.toNat = s.icnt.toNat + 1 := countTicks_icnt_toNat (by omega)
    rw [acqIdleArm_of_lt (by omega), runInstrs_tickPass_succ,
      passStep_takeTick_of_idle (s := countTicks 1 s) hIdle hFlag hInactive,
      ih (s := countTicks 1 s) hIdle hFlag hInactive (by omega), countTicks_countTicks, Nat.add_comm 1]

/-- Settles O50, by the arm Idle that ends the run: it stays in Idle below ten counted ticks and enters Started at ten. -/
theorem tenTicksToStarted : Obligations.TenTicksToStarted := by
  intro k s hIdle hFlag hInactive hTen hPos
  obtain ⟨j, rfl⟩ := Nat.exists_eq_add_one.mpr hPos
  have hRun := runInstrs_tickPass_of_idle hIdle hFlag hInactive (k := j) (by omega)
  have hIcnt : (countTicks (j + 1) s).icnt.toNat = s.icnt.toNat + (j + 1) := countTicks_icnt_toNat (by omega)
  by_cases hBelow : s.icnt.toNat + (j + 1) < 10
  · rw [acqIdleArm_of_lt (hIcnt.trans_lt hBelow)] at hRun
    exact ⟨_, hRun, rfl, fun _ => ⟨hIdle, hIcnt⟩, fun hEq => absurd hEq hBelow.ne⟩
  · rw [acqIdleArm_of_le (by omega)] at hRun
    exact ⟨_, hRun, rfl, fun hLt => absurd hLt hBelow, fun _ => ⟨rfl, rfl⟩⟩

end Sys2Proof.Machine
end

section
/-! The display has no cell beyond the four (20_memory.md R49, log 16): whatever an instruction does to the bus, an
address from 4 on reads as before. -/

namespace Sys2Proof.Machine

open Sys2Proof

/-- No effect of an instruction on the bus reaches an address beyond the cells. -/
theorem BusEffect.read {i : Instr} {b c : Bus} (h : BusEffect i b c) {a : Nat} (ha : Config.width ≤ a) :
    c.rcv.cells.read a = b.rcv.cells.read a := by
  cases h with
  | reset => exact afterReset_read b ha
  | grows _ hGrows => exact grows_read hGrows ha
  | contents _ hStep => exact CellsStep_read hStep.cells ha

/-- Settles O57, by what the instruction does to the bus: RESET frees the four cells alone, each event of a bus that
grows is one step of the receiver's cells, and so is a wire byte run as an instruction. -/
theorem otherAddressesUntouched : Obligations.OtherAddressesUntouched :=
  fun _ _ _ hExec _ hBeyond => (exec_bus hExec).read hBeyond

end Sys2Proof.Machine
end
